-- ==== Sys2Proof/Word.lean ====
section
/-!
DEFINITION. The word of the machine: the byte.

Every register, memory cell, opcode and operand is 8 bits wide and unsigned (spec/00_scope.md R107 `XLEN`, R109).
Addresses and the program counter are natural numbers, so that no sum wraps silently (R109, R168).
-/

namespace Sys2Proof

/-- An unsigned byte, 0 to 255 (spec/00_scope.md R109). -/
abbrev Byte := BitVec 8

/-- A natural number reduced modulo 256, the only narrowing of the machine (spec/10_state.md R123, R254). -/
abbrev Byte.ofNat (v : Nat) : Byte := BitVec.ofNat 8 v

end Sys2Proof
end

