-- ==== Sys2Proof/Syntax.lean ====
section
/-!
DEFINITION. The instructions: one constructor per row of spec/opcode_table.json, in its order (spec/30_encoding.md R196).

An operand is the whole operand byte (R191, R193): a register operand of 8 or more is an instruction too, whose handler
raises InvalidRegister when it uses the register (R122). `a` is byte 1 and `b` is byte 2 (R213).
-/

namespace Sys2Proof

inductive Instr where
  /-- `LDI Ra,imm`: `a` destination register, `b` 8-bit immediate (R240). -/
  | ldi (a b : Byte)
  /-- `PRN Ra`: `a` source register (R241). -/
  | prn (a : Byte)
  /-- `MUL Ra,Rb`: `a` first source and destination, `b` second source (R253). -/
  | mul (a b : Byte)
  /-- `ADD Ra,Rb`: `a` first source and destination, `b` second source (R252). -/
  | add (a b : Byte)
  /-- `PUSH Ra`: `a` source register (R261). -/
  | push (a : Byte)
  /-- `POP Ra`: `a` destination register (R262). -/
  | pop (a : Byte)
  /-- `CALL Ra`: `a` holds the target address (R270). -/
  | call (a : Byte)
  /-- `RET` (R271). -/
  | ret
  /-- `CMP Ra,Rb`: `a` left register, `b` right register (R281). -/
  | cmp (a b : Byte)
  /-- `JMP Ra`: `a` holds the target address (R290). -/
  | jmp (a : Byte)
  /-- `JEQ Ra`: `a` holds the target address (R291). -/
  | jeq (a : Byte)
  /-- `JNE Ra`: `a` holds the target address (R292). -/
  | jne (a : Byte)
  /-- `HALT` (R300). -/
  | halt
  deriving DecidableEq, Repr

end Sys2Proof
end

