-- ==== Sys2Proof/Decode.lean ====
section
/-!
DEFINITION. Decoding, total on any three fetched bytes and rejecting by name, and the encoder.

The whole opcode byte selects the instruction, the operand bytes take no part in it (spec/30_encoding.md R197), and an
opcode outside the table is invalid (R199). The engine always fetches three bytes (R192, R222), so the decoder is given
three and ignores those the instruction does not have (R201).
-/

namespace Sys2Proof

/-- Why three bytes are no instruction. -/
inductive DecodeError where
  /-- The opcode byte is none of the thirteen (R199). -/
  | invalidOpcode (op : Byte)
  deriving DecidableEq, Repr

/-- One row of the opcode map: opcode, length in bytes, and the instruction its operand bytes `a` and `b` make. -/
structure OpcodeRow where
  opcode : Byte
  length : Nat
  make : Byte → Byte → Instr

/-- The complete instruction set, in the source's order (R196). -/
def opcodeMap : List OpcodeRow :=
  [ ⟨0x82, 3, fun a b => .ldi a b⟩,
    ⟨0x47, 2, fun a _ => .prn a⟩,
    ⟨0xA2, 3, fun a b => .mul a b⟩,
    ⟨0xA0, 3, fun a b => .add a b⟩,
    ⟨0x45, 2, fun a _ => .push a⟩,
    ⟨0x46, 2, fun a _ => .pop a⟩,
    ⟨0x50, 2, fun a _ => .call a⟩,
    ⟨0x11, 1, fun _ _ => .ret⟩,
    ⟨0xA7, 3, fun a b => .cmp a b⟩,
    ⟨0x54, 2, fun a _ => .jmp a⟩,
    ⟨0x55, 2, fun a _ => .jeq a⟩,
    ⟨0x56, 2, fun a _ => .jne a⟩,
    ⟨0x01, 1, fun _ _ => .halt⟩ ]

/-- The dispatcher's lookup: all eight bits of the opcode byte against the thirteen values (R197, R224). -/
def lookup (op : Byte) : Option OpcodeRow := opcodeMap.find? fun r => r.opcode == op

/-- The instruction of the three fetched bytes (R191, R197), or a rejection by name (R199). -/
def decode (op a b : Byte) : Except DecodeError Instr :=
  match lookup op with
  | some r => .ok (r.make a b)
  | none => .error (.invalidOpcode op)

/-- The bytes of an instruction, the opcode at the lowest address (R190, R191 and the Encoding line of each
instruction's rule). -/
def encode : Instr → List Byte
  | .ldi a b => [0x82, a, b]
  | .prn a => [0x47, a]
  | .mul a b => [0xA2, a, b]
  | .add a b => [0xA0, a, b]
  | .push a => [0x45, a]
  | .pop a => [0x46, a]
  | .call a => [0x50, a]
  | .ret => [0x11]
  | .cmp a b => [0xA7, a, b]
  | .jmp a => [0x54, a]
  | .jeq a => [0x55, a]
  | .jne a => [0x56, a]
  | .halt => [0x01]

/-- The opcode byte of an instruction (the opcode column of R196). -/
def Instr.opcode : Instr → Byte
  | .ldi _ _ => 0x82
  | .prn _ => 0x47
  | .mul _ _ => 0xA2
  | .add _ _ => 0xA0
  | .push _ => 0x45
  | .pop _ => 0x46
  | .call _ => 0x50
  | .ret => 0x11
  | .cmp _ _ => 0xA7
  | .jmp _ => 0x54
  | .jeq _ => 0x55
  | .jne _ => 0x56
  | .halt => 0x01

/-- The mnemonic of an instruction (the mnemonic column of R196): which of the thirteen it is. -/
def Instr.mnemonic : Instr → String
  | .ldi _ _ => "LDI"
  | .prn _ => "PRN"
  | .mul _ _ => "MUL"
  | .add _ _ => "ADD"
  | .push _ => "PUSH"
  | .pop _ => "POP"
  | .call _ => "CALL"
  | .ret => "RET"
  | .cmp _ _ => "CMP"
  | .jmp _ => "JMP"
  | .jeq _ => "JEQ"
  | .jne _ => "JNE"
  | .halt => "HALT"

/-- The length of an instruction in bytes (the Len column of R196). -/
def Instr.length : Instr → Nat
  | .ldi _ _ => 3
  | .prn _ => 2
  | .mul _ _ => 3
  | .add _ _ => 3
  | .push _ => 2
  | .pop _ => 2
  | .call _ => 2
  | .ret => 1
  | .cmp _ _ => 3
  | .jmp _ => 2
  | .jeq _ => 2
  | .jne _ => 2
  | .halt => 1

/-- Byte `k` of an instruction word numbered as spec/opcode_table.json numbers it (byte 0 holds bits 7 to 0, and is the
byte at the lowest address, R191), every bit at `nbits` or above being 0. -/
def wordByte (nbits w k : Nat) : Byte := Byte.ofNat (w % 2 ^ nbits / 256 ^ k)

/-- What the decoder reads from the instruction whose bits are `w`, laid out as the hardware stores it. -/
def decodeTableWord (nbits w : Nat) : Option Instr :=
  match decode (wordByte nbits w 0) (wordByte nbits w 1) (wordByte nbits w 2) with
  | .ok i => some i
  | .error _ => none

end Sys2Proof
end

