-- ==== Sys2Proof/Config.lean ====
section
/-!
DEFINITION. The implementation parameters of spec/00_scope.md R107, and nothing else (R108).

The spec draws no free value (spec/40_engine_cycle.md R232), so no opaque constant stands here.
-/

namespace Sys2Proof

/-- The parameters of one engine. DESIGN CHOICE, log 1: a configuration is held with the engine it belongs to, so every
statement about a state holds for every configuration the spec lets a model take. Safe: it allows more machines. -/
structure Config where
  /-- `N - 1`, the last address: held as a byte, so that N is 1 to 256 (decision D1 of spec/92_eei_decisions.md). -/
  memTop : Byte
  /-- `TOS`, the value `run` writes to `x[7]` and the boundary of POP and RET (R107, D2). -/
  tos : Byte
  /-- `STEP_BUDGET`: the number of iterations that may reach their fetch, if bounded (R107, R230, D13). -/
  stepBudget : Option Nat
  /-- Whether the optional stop signal exists (R230, D13). -/
  stopInput : Bool
  deriving DecidableEq, Repr

/-- The memory size `N` in bytes; addresses are 0 to N - 1 (R107). -/
def Config.N (c : Config) : Nat := c.memTop.toNat + 1

/-- "The reference configuration": N = 256, TOS = 0xF4, no step budget, no stop signal (R107, R230). -/
def Config.reference : Config :=
  { memTop := 0xFF, tos := 0xF4, stepBudget := none, stopInput := false }

/-- The configuration of `new(memory_size)`; a size outside 1 to 256 is refused (R107, D1). -/
def Config.ofMemorySize (n : Nat) (tos : Byte) (stepBudget : Option Nat) (stopInput : Bool) : Option Config :=
  if 1 ≤ n ∧ n ≤ 256 then some { memTop := Byte.ofNat (n - 1), tos, stepBudget, stopInput } else none

end Sys2Proof
end

