-- ==== Sys2Proof/Machine/State.lean ====
section
/-!
DEFINITION. The state of the CORE as plain data (spec/10_state.md), its reset value, and the reasons a step can stop.

"The whole state of the CORE is: the memory `mem`, the eight registers `x[0]` to `x[7]`, the program counter `pc`, the
flags register `fl`, the engine state `es`, the fault record `fr`, the output log `out`, and (only when a step budget is
configured) the step counter `steps`. Nothing else is state." Of the three further fields, `cfg` and `stop` are
the parameters of the step that R144 lists (log 1, log 7), and `tally` counts steps where there is no `steps` (log 9).
-/

namespace Sys2Proof.Machine

/-- The flags register: "exactly one of {Less, Greater, Equal, Unset}" (R131, conflict C1). -/
inductive Flag where
  | unset
  | less
  | greater
  | equal
  deriving DecidableEq, Repr

/-- The engine state (R134). -/
inductive EngineState where
  | idle
  | running
  | halted
  | faulted
  deriving DecidableEq, Repr

/-- What the ALU can be asked for (spec/42_arithmetic.md R250): the one named operation, and any number of others, which
have no encoding (decision D17; DESIGN CHOICE, log 12: the others are numbered). -/
inductive AluOp where
  | add
  | other (n : Nat)
  deriving DecidableEq, Repr

/-- The seven fault kinds (spec/60_exceptions.md R310). -/
inductive FaultKind where
  | addressOutOfRange
  | invalidRegister
  | unsupportedOperation
  | invalidOpcode
  | stackOverflow
  | stackUnderflow
  | stopped
  deriving DecidableEq, Repr

/-- A fault kind with its own datum, written `Kind(info)` in the spec (R310). -/
inductive FaultCause where
  /-- Any memory access at N or above; the address (R311). -/
  | addressOutOfRange (addr : Nat)
  /-- An operand byte above 7 used as a register; the byte (R312). -/
  | invalidRegister (k : Byte)
  /-- The ALU asked for anything but Add; the operation (R313). No instruction raises it (R251). -/
  | unsupportedOperation (op : AluOp)
  /-- An opcode byte outside the table; the byte (R314). -/
  | invalidOpcode (op : Byte)
  /-- PUSH or CALL beginning with SP = 0; the SP value (R315). -/
  | stackOverflow (sp : Byte)
  /-- POP or RET beginning with SP at TOS or above; the SP value (R316). -/
  | stackUnderflow (sp : Byte)
  /-- The stop check at the head of a step; the number of steps started (R317). -/
  | stopped (steps : Nat)
  deriving DecidableEq, Repr

/-- A fault record (R136). The spec's fields `kind`, `code` and `info` are read off `cause` (log 8). -/
structure FaultRecord where
  cause : FaultCause
  /-- The address of the instruction being fetched or executed. -/
  pc : Nat
  /-- The opcode byte fetched in this step, or none if none was. -/
  opcode : Option Byte
  deriving DecidableEq, Repr

/-- Memory: the cells that hold something else than an unlisted cell, by rising address (log 5). -/
abbrev Memory := List Host.Cell

/-- The state of one engine. -/
structure State where
  /-- MODEL's own: the parameters N, TOS, STEP_BUDGET and the presence of the stop signal (R107, R144; log 1). -/
  cfg : Config
  /-- The N byte cells (R140). -/
  mem : Memory
  /-- The eight registers; index 7 is SP by convention (R120, R121). -/
  x : Vector Byte 8
  /-- The program counter, 0 to 256, never wrapping (R127). -/
  pc : Nat
  /-- The flags register (R131). -/
  fl : Flag
  /-- The engine state (R134). -/
  es : EngineState
  /-- The fault record, `none` until a fault (R136). -/
  fr : Option FaultRecord
  /-- The output log, oldest byte first (R141). -/
  out : List Byte
  /-- The step counter, counting only when STEP_BUDGET is configured (R142). -/
  steps : Nat
  /-- MODEL's own: the level of the stop signal (R144, R230, R356; log 7). -/
  stop : Bool
  /-- MODEL's own: the number of steps started, where a stop signal and no budget is configured (R310; log 9). -/
  tally : Nat
  deriving DecidableEq, Repr

/-- State after reset, that is after construction of an engine with configuration `c` (R145, R350). -/
def State.construct (c : Config) : State :=
  { cfg := c
    mem := []
    x := Vector.replicate 8 0
    pc := 0
    fl := .unset
    es := .idle
    fr := none
    out := []
    steps := 0
    stop := false
    tally := 0 }

/-- The machine right after reset, in the reference configuration (R107, R145): Idle, so no step runs an instruction
before the host loads and runs a program (log 3). -/
def State.reset : State := State.construct Config.reference

/-- Reasons a step ends with the outcome `fault`. There is none, so this type has no constructor: every fault of the spec
has a described entry (es <- Faulted, fr written, spec/60_exceptions.md R320), which the model takes as a next state
(DEDUCED, log 2; safe: nothing is hidden, the record is in the state). -/
inductive Fault : Type
  deriving DecidableEq, Repr

/-- Reasons a step ends without a meaning. -/
inductive Refusal where
  /-- Raised by an arm of `exec` for an instruction that has no meaning yet. No arm raises it: all thirteen instructions
  are modelled. Safe: nothing could be proved about such an instruction. -/
  | notModelled (mnemonic : String)
  deriving DecidableEq, Repr

end Sys2Proof.Machine
end

