-- ==== Sys2Proof/Machine/Ops.lean ====
section
/-!
DEFINITION. The operations over memory, registers, stack and output that every instruction is written with (the
primitives of spec/00_scope.md R110), the commit of a handler's result, and taking a fault.
-/

namespace Sys2Proof.Machine

/-! ### Memory as data -/

/-- What an unlisted address reads as: the reset content, "every byte 0" (spec/10_state.md R140, R145; log 5). -/
def Memory.unlisted : Byte := 0

/-- The byte a memory holds at an address. -/
def Memory.read : Memory → Nat → Byte
  | [], _ => Memory.unlisted
  | (b, w) :: m, a => if b = a then w else Memory.read m a

/-- The memory with the byte `v` at address `a`, in canonical form again: an entry equal to what an unlisted address
reads as is not listed. -/
def Memory.put : Memory → Nat → Byte → Memory
  | [], a, v => if v = Memory.unlisted then [] else [(a, v)]
  | (b, w) :: m, a, v =>
    if a < b then
      if v = Memory.unlisted then (b, w) :: m else (a, v) :: (b, w) :: m
    else if a = b then
      if v = Memory.unlisted then m else (a, v) :: m
    else (b, w) :: Memory.put m a v

/-- The memory with the bytes of a list at `a`, `a + 1`, … (spec/70_reset_and_hazards.md R352). -/
def Memory.putAll : Memory → Nat → List Byte → Memory
  | m, _, [] => m
  | m, a, v :: vs => Memory.putAll (Memory.put m a v) (a + 1) vs

/-- Canonical form: addresses strictly rising, no entry equal to what an unlisted address reads as. -/
abbrev Memory.wf (m : Memory) : Prop :=
  m.Pairwise (fun c d => c.1 < d.1) ∧ ∀ c ∈ m, c.2 ≠ Memory.unlisted

/-- The memory has no cell at `n` or above. -/
abbrev Memory.below (n : Nat) (m : Memory) : Prop := ∀ c ∈ m, c.1 < n

/-! ### Memory access -/

/-- `MemRead(addr, 1)` (spec/20_memory.md R160): range-checked, no wraparound. -/
def memRead (s : State) (addr : Nat) : Except FaultCause Byte :=
  if addr < s.cfg.N then .ok (s.mem.read addr) else .error (.addressOutOfRange addr)

/-- `MemWrite(addr, 1, v)` (R161): range-checked, no other byte changes. -/
def memWrite (s : State) (addr : Nat) (v : Byte) : Except FaultCause State :=
  if addr < s.cfg.N then .ok { s with mem := s.mem.put addr v } else .error (.addressOutOfRange addr)

/-! ### Registers -/

/-- `x[i]` (spec/10_state.md R120). -/
def State.reg (s : State) (i : Fin 8) : Byte := s.x[i]

/-- `x[i] <- v`: a register write stores `v mod 256`, and nothing else changes (R123). -/
def State.setReg (s : State) (i : Fin 8) (v : Nat) : State := { s with x := s.x.set i (Byte.ofNat v) }

/-- The index of the stack pointer, an ordinary register (R121). -/
def spIndex : Fin 8 := 7

/-- SP, that is `x[7]` (R121). -/
def State.sp (s : State) : Byte := s.reg spIndex

/-! ### Output -/

/-- `Output(v)`: append a byte to the output log; the port always accepts (R141). -/
def State.emit (s : State) (v : Byte) : State := { s with out := s.out ++ [v] }

/-! ### Stack -/

/-- The first half of a push: the check that SP does not go below address 0, then `SP -= 1`
(spec/43_stack.md R260, R261; decision D7). -/
def claimSlot (s : State) : Except FaultCause State :=
  if s.sp = 0 then .error (.stackOverflow s.sp) else .ok (s.setReg spIndex (s.sp.toNat - 1))

/-- The address a push at this state stores to: the decremented SP (spec/20_memory.md R164). -/
def State.pushAddr (s : State) : Nat := s.sp.toNat - 1

/-- The first half of a pop: the check that SP is below the top-of-stack boundary, then the read at SP (R260, R262;
decision D6). The cell is not cleared. -/
def readTop (s : State) : Except FaultCause Byte :=
  if s.cfg.tos ≤ s.sp then .error (.stackUnderflow s.sp) else memRead s s.sp.toNat

/-- The second half of a pop: `SP += 1`, modulo 256 by the register write (R168, R262). -/
def State.releaseSlot (s : State) : State := s.setReg spIndex (s.sp.toNat + 1)

/-! ### Faults -/

/-- The kind of a cause (spec/60_exceptions.md R310). -/
def FaultCause.kind : FaultCause → FaultKind
  | .addressOutOfRange _ => .addressOutOfRange
  | .invalidRegister _ => .invalidRegister
  | .unsupportedOperation _ => .unsupportedOperation
  | .invalidOpcode _ => .invalidOpcode
  | .stackOverflow _ => .stackOverflow
  | .stackUnderflow _ => .stackUnderflow
  | .stopped _ => .stopped

/-- The numeric code of a kind (the code column of R310; decision D10). -/
def FaultKind.code : FaultKind → Nat
  | .addressOutOfRange => 1
  | .invalidRegister => 2
  | .unsupportedOperation => 3
  | .invalidOpcode => 4
  | .stackOverflow => 5
  | .stackUnderflow => 6
  | .stopped => 7

/-- The record's field `kind` (spec/10_state.md R136). -/
def FaultRecord.kind (r : FaultRecord) : FaultKind := r.cause.kind

/-- The record's field `code`, "that kind's number" (R136). -/
def FaultRecord.code (r : FaultRecord) : Nat := r.kind.code

/-- TAKING A FAULT (spec/60_exceptions.md R320; spec/40_engine_cycle.md R228): es <- Faulted, fr <- the record with the pc
of the instruction and the opcode fetched, if one was; nothing else is written, so the writes of an abandoned handler
are dropped (decision D9). Control goes nowhere: there is no vector and no handler (R321).

There is NO return from a fault beside it: no instruction returns from one, and only a reset leaves Faulted (R322). -/
def State.takeFault (s : State) (cause : FaultCause) (opcode : Option Byte) : State :=
  { s with es := .faulted, fr := some { cause, pc := s.pc, opcode } }

/-! ### Results of a handler -/

/-- `NextStep`, the two results a handler can return (spec/40_engine_cycle.md R225). -/
inductive NextStep where
  | advance (newPc : Nat)
  | halt
  deriving DecidableEq, Repr

/-- What running a handler gives: the state with its writes and its result, or the fault it raised (R225). -/
abbrev Handled := Except FaultCause (State × NextStep)

/-- `Advance(cur + k)` with the handler's writes; no wrap (R226, spec/10_state.md R127, R129). -/
def advance (k : Nat) (s : State) : Handled := .ok (s, .advance (s.pc + k))

/-- `Advance(target)`: a whole byte becomes `pc`, unchecked (R226; spec/46_jump.md R293). -/
def jumpTo (target : Byte) (s : State) : Handled := .ok (s, .advance target.toNat)

/-- The engine's end of a step: the commit of `Advance` (R226), of `Halt`, which does not write `pc` (R227), or the fault
of the instruction `i` on the state the step began in (R228). -/
def conclude (i : Instr) (s : State) : Handled → Host.Outcome State Fault Refusal
  | .ok (t, .advance newPc) => .next { t with pc := newPc }
  | .ok (t, .halt) => .next { t with es := .halted }
  | .error cause => .next (s.takeFault cause (some i.opcode))

end Sys2Proof.Machine
end

