-- ==== Sys2Proof/Machine/Operands.lean ====
section
/-!
DEFINITION. The operand forms: a register named by a whole byte, and LDI's immediate (spec/30_encoding.md R193 to R195).
There is no other addressing mode (spec/20_memory.md R164).
-/

namespace Sys2Proof.Machine

/-- `RegIdx(k)` (spec/10_state.md R122): 0 to 7 select a register, 8 to 255 raise InvalidRegister(k). The upper five bits
are not masked. -/
def regIdx (k : Byte) : Except FaultCause (Fin 8) :=
  if h : k.toNat < 8 then .ok ⟨k.toNat, h⟩ else .error (.invalidRegister k)

/-- A register operand that is read: `x[RegIdx(k)]`. -/
def regOperand (s : State) (k : Byte) : Except FaultCause Byte :=
  match regIdx k with
  | .ok i => .ok (s.reg i)
  | .error c => .error c

/-- LDI's immediate: the byte as it stands, unsigned, never checked (R195). -/
def immediate (b : Byte) : Nat := b.toNat

end Sys2Proof.Machine
end

