-- ==== Sys2Proof/Machine/Arithmetic.lean ====
section
/-!
DEFINITION. The ALU, MUL and ADD (spec/42_arithmetic.md).
-/

namespace Sys2Proof.Machine

/-- `ALU.apply(op, lhs, rhs)` (R250): the sum modulo 256 for Add, UnsupportedOperation(op) for anything else. No flags, no
carry, no state. -/
def aluApply : AluOp → Byte → Byte → Except FaultCause Byte
  | .add, lhs, rhs => .ok (Byte.ofNat (lhs.toNat + rhs.toNat))
  | op@(.other _), _, _ => .error (.unsupportedOperation op)

/-- MUL: `x[i] <- (x[i] * x[j]) mod 256`, advance 3, not through the ALU (R251, R253). -/
def execMul (a b : Byte) (s : State) : Host.Outcome State Fault Refusal :=
  conclude (.mul a b) s do
    let i ← regIdx a
    let j ← regIdx b
    advance 3 (s.setReg i ((s.reg i).toNat * (s.reg j).toNat))

/-- ADD: `x[i] <- ALU.apply(Add, x[i], x[j])`, advance 3 (R252). -/
def execAdd (a b : Byte) (s : State) : Host.Outcome State Fault Refusal :=
  conclude (.add a b) s do
    let i ← regIdx a
    let j ← regIdx b
    let sum ← aluApply .add (s.reg i) (s.reg j)
    advance 3 (s.setReg i sum.toNat)

end Sys2Proof.Machine
end

