-- ==== Sys2Proof/Machine/Flags.lean ====
section
/-!
DEFINITION. The flags register block: the compare function, the jumps' condition and the bit view.
-/

namespace Sys2Proof.Machine

/-- `compare(u, v)` on bytes as unsigned integers; never Unset (spec/45_comparison.md R280, decision D19). -/
def compare (u v : Byte) : Flag :=
  if u.toNat = v.toNat then .equal else if u.toNat < v.toNat then .less else .greater

/-- The one thing an instruction can ask of `fl`: whether it is Equal (spec/10_state.md R132; spec/46_jump.md R294). -/
def Flag.isEqual : Flag → Bool
  | .unset => false
  | .less => false
  | .greater => false
  | .equal => true

/-- The flags of the comparison, in one write (spec/45_comparison.md R281). -/
def State.setFlag (s : State) (f : Flag) : State := { s with fl := f }

/-- The bit view `00000LGE` (spec/10_state.md R133, decision D4). No instruction observes it. -/
def Flag.bits : Flag → Byte
  | .unset => 0b000
  | .less => 0b100
  | .greater => 0b010
  | .equal => 0b001

end Sys2Proof.Machine
end

