-- ==== Sys2Proof/Machine/Comparison.lean ====
section
/-!
DEFINITION. CMP (spec/45_comparison.md).
-/

namespace Sys2Proof.Machine

/-- CMP: `fl <- compare(x[i], x[j])`, advance 3 (R281). -/
def execCmp (a b : Byte) (s : State) : Host.Outcome State Fault Refusal :=
  conclude (.cmp a b) s do
    let u ← regOperand s a
    let v ← regOperand s b
    advance 3 (s.setFlag (compare u v))

end Sys2Proof.Machine
end

