-- ==== Sys2Proof/Machine/DataMovement.lean ====
section
/-!
DEFINITION. LDI and PRN (spec/41_data_movement.md).
-/

namespace Sys2Proof.Machine

/-- LDI: `x[RegIdx(a)] <- b`, advance 3 (R240). -/
def execLdi (a b : Byte) (s : State) : Host.Outcome State Fault Refusal :=
  conclude (.ldi a b) s do
    let i ← regIdx a
    advance 3 (s.setReg i (immediate b))

/-- PRN: `Output(x[RegIdx(a)])`, advance 2 (R241). -/
def execPrn (a : Byte) (s : State) : Host.Outcome State Fault Refusal :=
  conclude (.prn a) s do
    let v ← regOperand s a
    advance 2 (s.emit v)

end Sys2Proof.Machine
end

