-- ==== Sys2Proof/Machine/Jump.lean ====
section
/-!
DEFINITION. JMP, JEQ and JNE (spec/46_jump.md). Every target is a whole byte of a register, unchecked (R293).
-/

namespace Sys2Proof.Machine

/-- The taken arm of a jump: the register is named and read only here (R290; decision D11 for JEQ and JNE). -/
def jumpToReg (a : Byte) (s : State) : Handled := do
  let target ← regOperand s a
  jumpTo target s

/-- JMP: `pc = x[i]` (R290). -/
def execJmp (a : Byte) (s : State) : Host.Outcome State Fault Refusal :=
  conclude (.jmp a) s (jumpToReg a s)

/-- JEQ: `pc = x[i]` if `fl = Equal`, else advance 2 with the operand unchecked (R291, decision D11). -/
def execJeq (a : Byte) (s : State) : Host.Outcome State Fault Refusal :=
  conclude (.jeq a) s (if s.fl.isEqual then jumpToReg a s else advance 2 s)

/-- JNE: advance 2 with the operand unchecked if `fl = Equal`, else `pc = x[i]` (R292, decision D11). -/
def execJne (a : Byte) (s : State) : Host.Outcome State Fault Refusal :=
  conclude (.jne a) s (if s.fl.isEqual then advance 2 s else jumpToReg a s)

end Sys2Proof.Machine
end

