-- ==== Sys2Proof/Machine/Stack.lean ====
section
/-!
DEFINITION. PUSH and POP (spec/43_stack.md).
-/

namespace Sys2Proof.Machine

/-- PUSH: `SP -= 1; mem[SP] = x[i]`, advance 2 (R261). The register is read after SP was updated, so `PUSH R7` stores the
decremented SP (decision D12). The range check of R261 is that of `memWrite`; a fault drops the SP write (R320). -/
def execPush (a : Byte) (s : State) : Host.Outcome State Fault Refusal :=
  conclude (.push a) s do
    let i ← regIdx a
    let claimed ← claimSlot s
    let stored ← memWrite claimed claimed.sp.toNat (claimed.reg i)
    advance 2 stored

/-- POP: `x[i] = mem[SP]; SP += 1`, advance 2 (R262). SP is incremented after the write of `x[i]`, so `POP R7` leaves the
popped byte plus 1 (decision D12). -/
def execPop (a : Byte) (s : State) : Host.Outcome State Fault Refusal :=
  conclude (.pop a) s do
    let i ← regIdx a
    let v ← readTop s
    advance 2 (s.setReg i v.toNat).releaseSlot

end Sys2Proof.Machine
end

