-- ==== Sys2Proof/Machine/Subroutine.lean ====
section
/-!
DEFINITION. CALL and RET (spec/44_subroutine.md).
-/

namespace Sys2Proof.Machine

/-- CALL's return address, one byte: `cur + 2`. It fits in every state a fetch completed in (R270); elsewhere the byte
narrows it (DESIGN CHOICE, log 13: no step gets there). -/
def returnAddress (s : State) : Byte := Byte.ofNat (s.pc + 2)

/-- CALL: push `cur + 2`, jump to `x[i]` (R270). The target is read after the push, so `CALL R7` jumps to the decremented
SP (decision D12). -/
def execCall (a : Byte) (s : State) : Host.Outcome State Fault Refusal :=
  conclude (.call a) s do
    let i ← regIdx a
    let claimed ← claimSlot s
    let stored ← memWrite claimed claimed.sp.toNat (returnAddress s)
    jumpTo (stored.reg i) stored

/-- RET: pop the target, jump to it (R271). -/
def execRet (s : State) : Host.Outcome State Fault Refusal :=
  conclude .ret s do
    let target ← readTop s
    jumpTo target s.releaseSlot

end Sys2Proof.Machine
end

