-- ==== Sys2Proof/Machine/System.lean ====
section
/-!
DEFINITION. HALT, the one system instruction (spec/47_halt.md R300, R301).
-/

namespace Sys2Proof.Machine

/-- HALT: the result `Halt`; the commit does es <- Halted and leaves `pc` (R227, R300). -/
def execHalt (s : State) : Host.Outcome State Fault Refusal :=
  conclude .halt s (.ok (s, .halt))

end Sys2Proof.Machine
end

