-- ==== Sys2Proof/Machine/HostInterface.lean ====
section
/-!
DEFINITION. The host interface as whole transactions (spec/70_reset_and_hazards.md R350 to R357, R365).

The host acts between steps only, and has no other move (R351; spec/20_memory.md R178; decision D21).
-/

namespace Sys2Proof.Machine

/-- The start of `run` (R353; spec/10_state.md R146): what is not named keeps its value. -/
def State.startRun (s : State) : State :=
  { s.setReg spIndex s.cfg.tos.toNat with pc := 0, fl := .unset, es := .running, steps := 0 }

/-- `Outcome` of `run()` (R137, R355). -/
inductive RunOutcome where
  | halted
  | faulted (r : FaultRecord)
  deriving DecidableEq, Repr

/-- The outcome, once the run has ended: a function of `es` and `fr`, no further state (spec/10_state.md R137). -/
def State.outcome (s : State) : Option RunOutcome :=
  match s.es, s.fr with
  | .halted, _ => some .halted
  | .faulted, some r => some (.faulted r)
  | _, _ => none

/-- What the host may read after the run (R357). -/
structure FinalState where
  mem : Memory
  x : Vector Byte 8
  pc : Nat
  fl : Flag
  es : EngineState
  fr : Option FaultRecord
  deriving DecidableEq, Repr

/-- The transactions of R351. -/
inductive HostAction where
  /-- `new(memory_size)`, with the configuration it fixes (R350). -/
  | reset (c : Config)
  /-- `load(bytes, start_address)` (R352). -/
  | load (bytes : List Byte) (start : Nat)
  /-- `run()`: its start; the steps follow (R353). -/
  | run
  /-- Assertion of the stop signal (R356). -/
  | assertStop
  | readOutput
  | readFinal
  deriving DecidableEq, Repr

/-- What the host gets back. -/
inductive HostReply where
  | done
  /-- The transaction is not allowed in this state of the engine: nothing happens (R351, R354). -/
  | notAllowed
  /-- A `load` that does not fit fails with AddressOutOfRange and writes nothing (R352, R325; log 11). -/
  | loadOutOfRange
  | output (bytes : List Byte)
  | final (view : FinalState)
  deriving DecidableEq, Repr

/-- `load(bytes, start_address)`: allowed in Idle, whole or not at all (R352, decision D15). -/
def State.load (s : State) (bytes : List Byte) (start : Nat) : State × HostReply :=
  if s.es ≠ .idle then (s, .notAllowed)
  else if bytes = [] then (s, .done)
  else if start + bytes.length ≤ s.cfg.N then ({ s with mem := s.mem.putAll start bytes }, .done)
  else (s, .loadOutOfRange)

/-- One host transaction (R351). -/
def State.transact (s : State) : HostAction → State × HostReply
  | .reset c => (State.construct c, .done)
  | .load bytes start => s.load bytes start
  | .run => if s.es = .idle then (s.startRun, .done) else (s, .notAllowed)
  | .assertStop =>
    if s.es = .running ∧ s.cfg.stopInput then ({ s with stop := true }, .done) else (s, .notAllowed)
  | .readOutput => (s, .output s.out)
  | .readFinal =>
    if s.es = .halted ∨ s.es = .faulted then
      (s, .final { mem := s.mem, x := s.x, pc := s.pc, fl := s.fl, es := s.es, fr := s.fr })
    else (s, .notAllowed)

/-- How the host shows one byte of `out`: its unsigned decimal digits and a line end (R365, decision D16). Surrounding
software, given for reading a run; nothing of the machine depends on it. -/
def decimalLine (v : Byte) : String := Nat.repr v.toNat ++ "\n"

end Sys2Proof.Machine
end

