-- ==== Sys2Proof/Machine/Engine.lean ====
section
/-!
DEFINITION. The engine's loop body: stop check, fetch, dispatch, execute (spec/40_engine_cycle.md R221), and how an
instruction is laid before the fetch for the host's questions.
-/

namespace Sys2Proof.Machine

/-! ### The stop check and the step counter -/

/-- The optional stop check (R230): the stop signal is asserted, or the budget's iterations are used up. Absent, that is
false, in a configuration with neither. -/
def State.stopDue (s : State) : Bool :=
  (s.cfg.stopInput && s.stop) || decide (s.cfg.stepBudget = some s.steps)

/-- Whether `steps` counts: "only when STEP_BUDGET is configured" (R221, spec/10_state.md R142). -/
def State.counting (s : State) : Bool := s.cfg.stepBudget.isSome

/-- Whether the model's own `tally` counts: with the stop signal alone, where there is no `steps` and Stopped still
reports the number of steps started (spec/60_exceptions.md R310; DESIGN CHOICE, log 9). -/
def State.tallying (s : State) : Bool := s.cfg.stopInput && s.cfg.stepBudget.isNone

/-- The `info` of Stopped, "the number of steps started" (spec/60_exceptions.md R310): `steps` where it exists (R221), else
the model's own `tally` (DESIGN CHOICE, log 9). -/
def State.started (s : State) : Nat := if s.counting then s.steps else s.tally

/-- The count of an iteration that reached its fetch. One that faulted writes es and fr and nothing else (R228;
DESIGN CHOICE, log 10). -/
def State.countStep (s : State) : State :=
  if s.es = .faulted then s
  else
    { s with
      steps := if s.counting then s.steps + 1 else s.steps
      tally := if s.tallying then s.tally + 1 else s.tally }

/-- The count applied to the outcome of an instruction. -/
def counted : Host.Outcome State Fault Refusal → Host.Outcome State Fault Refusal
  | .next t => .next t.countStep
  | .fault r => .fault r
  | .refused r => .refused r

/-! ### Fetch -/

/-- The three bytes every step reads (R222). -/
structure Fetched where
  op : Byte
  a : Byte
  b : Byte
  deriving DecidableEq, Repr

/-- A fetch that failed: the fault, and the opcode if its read had succeeded (R136). -/
structure FetchFault where
  cause : FaultCause
  opcode : Option Byte
  deriving DecidableEq, Repr

/-- Fetch: `pc`, `pc + 1`, `pc + 2` in that order, each range-checked, whatever the opcode (R222, decision D23). -/
def fetch (s : State) : Except FetchFault Fetched :=
  match memRead s s.pc with
  | .error c => .error ⟨c, none⟩
  | .ok op =>
    match memRead s (s.pc + 1) with
    | .error c => .error ⟨c, some op⟩
    | .ok a =>
      match memRead s (s.pc + 2) with
      | .error c => .error ⟨c, some op⟩
      | .ok b => .ok ⟨op, a, b⟩

/-! ### One iteration -/

/-- One iteration of the loop while Running (R221). The order of the checks is that of R319. -/
def iterate (s : State) : Host.Outcome State Fault Refusal :=
  if s.stopDue then .next (s.takeFault (.stopped s.started) none)
  else
    match fetch s with
    | .error e => .next (s.takeFault e.cause e.opcode)
    | .ok f =>
      match decode f.op f.a f.b with
      | .error (.invalidOpcode op) => .next (s.takeFault (.invalidOpcode op) (some f.op))
      | .ok i => counted (exec i s)

/-- The engine takes steps only while Running; otherwise it does nothing and no state changes (R220; DEDUCED, log 2). -/
def engineStep (s : State) : Host.Outcome State Fault Refusal :=
  match s.es with
  | .running => iterate s
  | .idle => .next s
  | .halted => .next s
  | .faulted => .next s

/-! ### Laying an instruction before the fetch (log 3) -/

/-- A state whose next step fetches: an Idle engine starts its run (R353); an engine that has ended is put back to
Running with no fault record, which only a test bench can do. A pc no fetch can complete at goes to 0, and a stop
check that is due is disarmed. -/
def State.readied (s : State) : State :=
  let r := match s.es with
    | .idle => s.startRun
    | .running => s
    | .halted => { s with es := .running, fr := none }
    | .faulted => { s with es := .running, fr := none }
  let p := if r.pc + 2 < r.cfg.N then r else { r with pc := 0 }
  if p.stopDue then { p with stop := false, steps := 0 } else p

/-- The readied state with the three bytes of an instruction word at its pc. -/
def State.placeWord (s : State) (nbits w : Nat) : State :=
  let r := s.readied
  { r with mem := r.mem.putAll r.pc [wordByte nbits w 0, wordByte nbits w 1, wordByte nbits w 2] }

end Sys2Proof.Machine
end

