-- ==== Sys2Proof/Machine/Step.lean ====
section
/-!
DEFINITION. One step of the machine (spec/40_engine_cycle.md R220, R221), and the host's way to put an instruction under
the next fetch.
-/

namespace Sys2Proof.Machine

/-- One step of the engine. -/
def step (s : State) : Host.Outcome State Fault Refusal := engineStep s

/-- `s` with the instruction word `w` of `nbits` bits where the next step fetches. On an Idle engine this stands for the
host's `load` and the start of `run` (spec/70_reset_and_hazards.md R352, R353, R359; log 3). -/
def State.withFetchWord (s : State) (nbits w : Nat) : State := s.placeWord nbits w

end Sys2Proof.Machine
end

