-- ==== Sys2Proof/WellFormed.lean ====
section
/-!
DEFINITION. Well-formed instructions: every byte that names a register names one of the eight.

"Register indices in operands must be 0 to 7" (spec/70_reset_and_hazards.md R378) is a duty of software: the machine
decodes and runs an ill-formed instruction too, and its handler raises InvalidRegister if it uses the register
(spec/10_state.md R122, spec/60_exceptions.md R312). LDI's `b` is data and is never checked (R195, R240).
-/

namespace Sys2Proof

/-- The byte names a register of the file: 0 to 7 (R122). -/
def isRegister (k : Byte) : Bool := decide (k.toNat < 8)

/-- Every register operand of the instruction names a register (R193, R194, R378). -/
def WellFormed : Instr → Bool
  | .ldi a _ => isRegister a
  | .prn a => isRegister a
  | .mul a b => isRegister a && isRegister b
  | .add a b => isRegister a && isRegister b
  | .push a => isRegister a
  | .pop a => isRegister a
  | .call a => isRegister a
  | .ret => true
  | .cmp a b => isRegister a && isRegister b
  | .jmp a => isRegister a
  | .jeq a => isRegister a
  | .jne a => isRegister a
  | .halt => true

end Sys2Proof
end

