-- ==== Sys2Proof/Safety.lean ====
section
/-!
DEFINITION. The terms claims are stated in: the invariant of the machine, a quiet configuration, the code in front of the
fetch, and the faults an instruction may raise.
-/

namespace Sys2Proof.Machine

/-- The invariant every step and every host transaction keeps. -/
structure State.Inv (s : State) : Prop where
  /-- Memory keeps its canonical form (log 5). -/
  canonical : s.mem.wf
  /-- No cell stands at N or above (spec/10_state.md R140). -/
  inRange : s.mem.below s.cfg.N
  /-- "The values it can take are 0 to 256 inclusive" (R127). -/
  pcRange : s.pc ≤ 256
  /-- The fault record is written exactly by the transition to Faulted (R136). -/
  recorded : s.es = .faulted ↔ s.fr.isSome
  /-- `pc` is left holding the address of the instruction that faulted (R128). -/
  recordPc : ∀ r, s.fr = some r → r.pc = s.pc
  /-- No more iterations than the budget reach their fetch (spec/40_engine_cycle.md R230). -/
  budget : ∀ k, s.cfg.stepBudget = some k → s.steps ≤ k
  /-- Without a step budget there is no `steps` (R142): the field stays 0. -/
  uncounted : s.counting = false → s.steps = 0
  /-- The model's own tally is used only with the stop signal and no budget (log 9). -/
  untallied : s.tallying = false → s.tally = 0
  /-- The stop signal is asserted only where it exists (R230). -/
  stopExists : s.stop = true → s.cfg.stopInput = true
  /-- An Idle engine is as reset left it but for loaded memory (R145, spec/70_reset_and_hazards.md R351). -/
  idleFresh : s.es = .idle → s = { State.construct s.cfg with mem := s.mem }

/-- The engine is Running in a configuration with no stop signal and no step budget, where line 0 of the step is absent
(spec/40_engine_cycle.md R230); the reference configuration is one. -/
abbrev State.Unbounded (s : State) : Prop :=
  s.es = .running ∧ s.cfg.stepBudget = none ∧ s.cfg.stopInput = false

/-- The bytes at `pc`, `pc + 1`, … are those of the list. -/
abbrev State.CodeAt (s : State) (code : List Byte) : Prop :=
  ∀ k, k < code.length → s.mem.read (s.pc + k) = code.getD k 0

end Sys2Proof.Machine

namespace Sys2Proof

/-- The handler's own faults of each instruction (the table of spec/60_exceptions.md R318). -/
def Instr.mayRaise : Instr → List Machine.FaultKind
  | .ldi _ _ => [.invalidRegister]
  | .prn _ => [.invalidRegister]
  | .mul _ _ => [.invalidRegister]
  | .add _ _ => [.invalidRegister]
  | .push _ => [.addressOutOfRange, .invalidRegister, .stackOverflow]
  | .pop _ => [.addressOutOfRange, .invalidRegister, .stackUnderflow]
  | .call _ => [.addressOutOfRange, .invalidRegister, .stackOverflow]
  | .ret => [.addressOutOfRange, .stackUnderflow]
  | .cmp _ _ => [.invalidRegister]
  | .jmp _ => [.invalidRegister]
  | .jeq _ => [.invalidRegister]
  | .jne _ => [.invalidRegister]
  | .halt => []

end Sys2Proof
end

