-- ==== Sys2Proof/Certificates/Slice0/Obligations.lean ====
section
/-!
DEFINITION. The statements for the provers. "D<n>" is a decision of spec/92_eei_decisions.md, which is the spec's own
choice and no statement of its source; a docstring names each decision or log entry its statement rests on.
-/

open Sys2Proof Sys2Proof.Machine

/-! ### Encoding and decoding (spec/30_encoding.md) -/

/-- Words written out from the encoding table decode to the instructions they stand for. A sanity statement. -/
def Obligations.WordsOfTheTableDecode : Prop :=
  decode 0x82 0x00 0x08 = .ok (.ldi 0 8) ∧ decode 0x47 0x00 0x01 = .ok (.prn 0) ∧
    decode 0xA2 0x00 0x01 = .ok (.mul 0 1) ∧ decode 0x45 0x02 0x46 = .ok (.push 2) ∧
    decode 0x50 0x01 0x47 = .ok (.call 1) ∧ decode 0xA7 0x00 0x02 = .ok (.cmp 0 2) ∧
    decode 0x56 0x03 0x01 = .ok (.jne 3) ∧ decode 0x01 0x00 0x00 = .ok .halt ∧
    decode 0x00 0x00 0x00 = .error (.invalidOpcode 0)

/-- R197: the whole opcode byte, and nothing else, selects the instruction, and no instruction has two opcodes; the
thirteen values are the only ones. -/
def Obligations.OpcodeByteAloneSelects : Prop :=
  (∀ op op' a b a' b' : Byte, ∀ i j, decode op a b = .ok i → decode op' a' b' = .ok j →
    (i.mnemonic = j.mnemonic ↔ op = op')) ∧
  ∀ op a b : Byte,
    if op ∈ ([0x82, 0x47, 0xA2, 0xA0, 0x45, 0x46, 0x50, 0x11, 0xA7, 0x54, 0x55, 0x56, 0x01] : List Byte) then
      ∃ i, decode op a b = .ok i ∧ i.opcode = op
    else decode op a b = .error (.invalidOpcode op)

/-- Decoding inverts encoding, for EVERY instruction and every operand byte (so for every well-formed one), whatever
bytes follow the instruction in memory. -/
def Obligations.DecodeInvertsEncode : Prop :=
  ∀ (i : Instr) (op a b : Byte) (following rest : List Byte),
    encode i ++ following = op :: a :: b :: rest → decode op a b = .ok i

/-- Encoding inverts decoding: a decoded instruction encodes to the fetched bytes, cut at its length. -/
def Obligations.EncodeInvertsDecode : Prop :=
  ∀ (op a b : Byte) (i : Instr), decode op a b = .ok i → encode i = [op, a, b].take i.length

/-- Fetched bytes beyond the instruction's length are ignored (derived in R201): any value is allowed there. -/
def Obligations.BytesBeyondLengthIgnored : Prop :=
  ∀ (op a b a' b' : Byte) (i : Instr), decode op a b = .ok i →
    (i.length = 2 → decode op a b' = .ok i) ∧ (i.length = 1 → decode op a' b' = .ok i)

/-! ### Registers, memory, ALU and compare -/

/-- R122: a register is selected by a whole operand byte, 8 to 255 raising InvalidRegister, the upper bits not masked. -/
def Obligations.WholeByteSelectsRegister : Prop :=
  ∀ k : Byte, (∀ h : k.toNat < 8, regIdx k = .ok ⟨k.toNat, h⟩) ∧
    (8 ≤ k.toNat → regIdx k = .error (.invalidRegister k))

/-- R123: a register write stores the value modulo 256, and nothing else in the machine changes. -/
def Obligations.RegisterWriteTruncates : Prop :=
  ∀ (s : State) (i : Fin 8) (v : Nat),
    ((s.setReg i v).reg i).toNat = v % 256 ∧ (∀ j, j ≠ i → (s.setReg i v).reg j = s.reg j) ∧
      { s.setReg i v with x := s.x } = s

/-- R160: a read at N or above raises AddressOutOfRange of the unreduced address, any other gives the byte of the cell. -/
def Obligations.ReadIsRangeChecked : Prop :=
  ∀ (s : State) (addr : Nat), (s.cfg.N ≤ addr → memRead s addr = .error (.addressOutOfRange addr)) ∧
    (addr < s.cfg.N → memRead s addr = .ok (s.mem.read addr))

/-- R161: a write at N or above raises AddressOutOfRange and changes nothing; any other stores the byte, and no other byte
and no other state changes. The premise is the canonical form of memory, an invariant (StepKeepsInvariant). -/
def Obligations.WriteIsRangeChecked : Prop :=
  ∀ (s : State) (addr : Nat) (v : Byte), s.mem.wf →
    (s.cfg.N ≤ addr → memWrite s addr v = .error (.addressOutOfRange addr)) ∧
      (addr < s.cfg.N → ∃ t, memWrite s addr v = .ok t ∧ memRead t addr = .ok v ∧
        (∀ b, b ≠ addr → memRead t b = memRead s b) ∧ t = { s with mem := t.mem })

/-- The ALU adds modulo 256, and any other operation raises UnsupportedOperation (how the others are told apart is D17). -/
def Obligations.AluAddsAndRejectsTheRest : Prop :=
  ∀ lhs rhs : Byte, (∃ r, aluApply .add lhs rhs = .ok r ∧ r.toNat = (lhs.toNat + rhs.toNat) % 256) ∧
    ∀ op, op ≠ .add → aluApply op lhs rhs = .error (.unsupportedOperation op)

/-- The compare function is the unsigned order (D19), never Unset, and swapping its operands swaps Less and Greater. -/
def Obligations.CompareIsUnsignedOrder : Prop :=
  ∀ u v : Byte, (Machine.compare u v = .equal ↔ u = v) ∧ (Machine.compare u v = .less ↔ u.toNat < v.toNat) ∧
    (Machine.compare u v = .greater ↔ v.toNat < u.toNat) ∧ Machine.compare u v ≠ .unset ∧
    (Machine.compare u v = .less ↔ Machine.compare v u = .greater) ∧
    (Machine.compare u v = .equal ↔ Machine.compare v u = .equal)

/-! ### What each instruction does -/

/-- R240: LDI. -/
def Obligations.LdiLoadsImmediate : Prop :=
  ∀ (a b : Byte) (s : State),
    encode (.ldi a b) = [0x82, a, b] ∧ decode 0x82 a b = .ok (.ldi a b) ∧
    (∀ h : a.toNat < 8,
      exec (.ldi a b) s = .next { s with x := s.x.set a.toNat b h, pc := s.pc + 3 }) ∧
    (8 ≤ a.toNat → ∃ t, exec (.ldi a b) s = .next t ∧ t.es = .faulted ∧
      t.fr.map (·.cause) = some (.invalidRegister a) ∧
      t.x = s.x ∧ t.pc = s.pc ∧ t.fl = s.fl ∧ t.mem = s.mem ∧ t.out = s.out)

/-- R241: PRN appends exactly the register's byte to the output. -/
def Obligations.PrnEmitsRegister : Prop :=
  ∀ (a : Byte) (s : State),
    encode (.prn a) = [0x47, a] ∧ (∀ b, decode 0x47 a b = .ok (.prn a)) ∧
    (∀ h : a.toNat < 8,
      exec (.prn a) s = .next { s with out := s.out ++ [s.x[a.toNat]], pc := s.pc + 2 }) ∧
    (8 ≤ a.toNat → ∃ t, exec (.prn a) s = .next t ∧ t.es = .faulted ∧
      t.fr.map (·.cause) = some (.invalidRegister a) ∧
      t.out = s.out ∧ t.x = s.x ∧ t.pc = s.pc ∧ t.fl = s.fl ∧ t.mem = s.mem)

/-- MUL: the low 8 bits of the unsigned product, discarding the rest; both operands are read before the write. -/
def Obligations.MulWritesLowByteOfProduct : Prop :=
  ∀ (a b : Byte) (s : State) (ha : a.toNat < 8) (hb : b.toNat < 8),
    ∃ v : Byte, v.toNat = s.x[a.toNat].toNat * s.x[b.toNat].toNat % 256 ∧
      exec (.mul a b) s = .next { s with x := s.x.set a.toNat v ha, pc := s.pc + 3 }

/-- ADD: the ALU's sum, modulo 256; both operands are read before the write. -/
def Obligations.AddWritesSumModulo256 : Prop :=
  ∀ (a b : Byte) (s : State) (ha : a.toNat < 8) (hb : b.toNat < 8),
    ∃ v : Byte, v.toNat = (s.x[a.toNat].toNat + s.x[b.toNat].toNat) % 256 ∧
      aluApply .add s.x[a.toNat] s.x[b.toNat] = .ok v ∧
      exec (.add a b) s = .next { s with x := s.x.set a.toNat v ha, pc := s.pc + 3 }

/-- PUSH: SP is decremented, then the register is stored at the new SP, so `PUSH R7` stores the decremented SP (D12). -/
def Obligations.PushStoresAtDecrementedSp : Prop :=
  ∀ (a : Byte) (s : State) (h : a.toNat < 8), s.x[7] ≠ 0 → s.x[7].toNat - 1 < s.cfg.N →
    exec (.push a) s = .next { s with
      x := s.x.set 7 (s.x[7] - 1)
      mem := s.mem.put (s.x[7].toNat - 1) (if a = 7 then s.x[7] - 1 else s.x[a.toNat])
      pc := s.pc + 2 }

/-- POP: the byte at SP goes to the register, then SP is incremented, so `POP R7` leaves the popped byte plus 1 (D12). The
stack is not empty when SP is below TOS (D6). -/
def Obligations.PopLoadsFromSp : Prop :=
  ∀ (a : Byte) (s : State) (h : a.toNat < 8), s.x[7] < s.cfg.tos → s.x[7].toNat < s.cfg.N →
    exec (.pop a) s = .next { s with
      x := if a = 7 then s.x.set 7 (s.mem.read s.x[7].toNat + 1)
        else (s.x.set a.toNat (s.mem.read s.x[7].toNat) h).set 7 (s.x[7] + 1)
      pc := s.pc + 2 }

/-- CALL: the address of the next instruction is pushed as one byte, then control goes to the register, read after the
push, so `CALL R7` jumps to the decremented SP (D12). The return address fits in the byte where a fetch completed. -/
def Obligations.CallPushesReturnAddress : Prop :=
  ∀ (a : Byte) (s : State) (h : a.toNat < 8), s.x[7] ≠ 0 → s.x[7].toNat - 1 < s.cfg.N →
    ∃ returnTo : Byte, (s.pc + 2 < s.cfg.N → returnTo.toNat = s.pc + 2) ∧
      exec (.call a) s = .next { s with
        x := s.x.set 7 (s.x[7] - 1)
        mem := s.mem.put (s.x[7].toNat - 1) returnTo
        pc := if a = 7 then s.x[7].toNat - 1 else s.x[a.toNat].toNat }

/-- RET: the byte at SP becomes the pc, and SP is incremented. The stack is not empty when SP is below TOS (D6). -/
def Obligations.RetPopsItsTarget : Prop :=
  ∀ s : State, s.x[7] < s.cfg.tos → s.x[7].toNat < s.cfg.N →
    exec .ret s = .next { s with
      x := s.x.set 7 (s.x[7] + 1)
      pc := (s.mem.read s.x[7].toNat).toNat }

/-- CMP: the flags become the comparison of the two registers as unsigned numbers (D19), in one write; nothing else but the
pc changes. -/
def Obligations.CmpSetsFlags : Prop :=
  ∀ (a b : Byte) (s : State) (_ : a.toNat < 8) (_ : b.toNat < 8),
    exec (.cmp a b) s = .next { s with
      fl := if s.x[a.toNat] = s.x[b.toNat] then .equal
        else if s.x[a.toNat].toNat < s.x[b.toNat].toNat then .less else .greater
      pc := s.pc + 3 }

/-- R290: JMP. -/
def Obligations.JmpGoesToRegister : Prop :=
  ∀ (a : Byte) (s : State),
    encode (.jmp a) = [0x54, a] ∧ (∀ b, decode 0x54 a b = .ok (.jmp a)) ∧
    (∀ _ : a.toNat < 8, exec (.jmp a) s = .next { s with pc := s.x[a.toNat].toNat }) ∧
    (8 ≤ a.toNat → ∃ t, exec (.jmp a) s = .next t ∧ t.es = .faulted ∧
      t.fr.map (·.cause) = some (.invalidRegister a) ∧
      t.pc = s.pc ∧ t.x = s.x ∧ t.fl = s.fl ∧ t.mem = s.mem ∧ t.out = s.out)

/-- JEQ: taken exactly when the flags are Equal; the operand is checked only when the jump is taken (D11). -/
def Obligations.JeqJumpsOnEqual : Prop :=
  ∀ (a : Byte) (s : State),
    (s.fl = .equal → ∀ _ : a.toNat < 8, exec (.jeq a) s = .next { s with pc := s.x[a.toNat].toNat }) ∧
    (s.fl = .equal → 8 ≤ a.toNat → exec (.jeq a) s =
      .next { s with es := .faulted, fr := some ⟨.invalidRegister a, s.pc, some 0x55⟩ }) ∧
    (s.fl ≠ .equal → exec (.jeq a) s = .next { s with pc := s.pc + 2 })

/-- JNE: taken exactly when the flags are not Equal, Unset included; the operand is checked only when the jump is taken
(D11). -/
def Obligations.JneJumpsOnNotEqual : Prop :=
  ∀ (a : Byte) (s : State),
    (s.fl ≠ .equal → ∀ _ : a.toNat < 8, exec (.jne a) s = .next { s with pc := s.x[a.toNat].toNat }) ∧
    (s.fl ≠ .equal → 8 ≤ a.toNat → exec (.jne a) s =
      .next { s with es := .faulted, fr := some ⟨.invalidRegister a, s.pc, some 0x56⟩ }) ∧
    (s.fl = .equal → exec (.jne a) s = .next { s with pc := s.pc + 2 })

/-- R300: HALT ends the run and leaves the pc; it must stand where its fetch can complete; it is the only way to reach
Halted, by a distinct result; there is no resume; the bytes fetched after it are ignored. -/
def Obligations.HaltEndsTheRun : Prop :=
  encode .halt = [0x01] ∧ (∀ a b, decode 0x01 a b = .ok .halt) ∧
  (∀ s : State, exec .halt s = .next { s with es := .halted }) ∧
  (∀ s t : State, s.es = .running → s.cfg.N ≤ s.pc + 2 → step s = .next t → t.es = .faulted) ∧
  (∀ (i : Instr) (s t : State), exec i s = .next t → s.es ≠ .halted → t.es = .halted → i = .halt) ∧
  (∀ s : State, s.es = .halted → step s = .next s)

/-! ### Faults of the handlers (spec/60_exceptions.md) -/

/-- A bad register operand is tested before anything else, `a` before `b` (D8), and the fault leaves the rest of the state
(D9). JEQ and JNE are in their own statements. -/
def Obligations.RegisterOperandsTestedFirst : Prop :=
  ∀ (a b : Byte) (s : State),
    (8 ≤ a.toNat → ∀ i ∈ [Instr.ldi a b, .prn a, .mul a b, .add a b, .push a, .pop a, .call a, .cmp a b, .jmp a],
      exec i s = .next { s with es := .faulted, fr := some ⟨.invalidRegister a, s.pc, some i.opcode⟩ }) ∧
    (a.toNat < 8 → 8 ≤ b.toNat → ∀ i ∈ [Instr.mul a b, .add a b, .cmp a b],
      exec i s = .next { s with es := .faulted, fr := some ⟨.invalidRegister b, s.pc, some i.opcode⟩ })

/-- The stack checks: SP = 0 for PUSH and CALL (D7), SP at TOS or above for POP and RET (D6), and a stack address outside
memory where N is small, in that order (D8); the fault leaves the rest of the state (D9). -/
def Obligations.StackChecksFault : Prop :=
  ∀ (a : Byte) (s : State), a.toNat < 8 →
    (s.x[7] = 0 → ∀ i ∈ [Instr.push a, .call a],
      exec i s = .next { s with es := .faulted, fr := some ⟨.stackOverflow 0, s.pc, some i.opcode⟩ }) ∧
    (s.x[7] ≠ 0 → s.cfg.N ≤ s.x[7].toNat - 1 → ∀ i ∈ [Instr.push a, .call a],
      exec i s = .next { s with
        es := .faulted, fr := some ⟨.addressOutOfRange (s.x[7].toNat - 1), s.pc, some i.opcode⟩ }) ∧
    (s.cfg.tos ≤ s.x[7] → ∀ i ∈ [Instr.pop a, .ret],
      exec i s = .next { s with es := .faulted, fr := some ⟨.stackUnderflow s.x[7], s.pc, some i.opcode⟩ }) ∧
    (s.x[7] < s.cfg.tos → s.cfg.N ≤ s.x[7].toNat → ∀ i ∈ [Instr.pop a, .ret],
      exec i s = .next { s with
        es := .faulted, fr := some ⟨.addressOutOfRange s.x[7].toNat, s.pc, some i.opcode⟩ })

/-- An instruction raises only the faults the table derived in R318 gives it, and no data access leaves memory when
N = 256. -/
def Obligations.OnlyListedFaultsRaised : Prop :=
  ∀ (i : Instr) (s t : State) (r : FaultRecord), exec i s = .next t → s.fr = none → t.fr = some r →
    r.kind ∈ i.mayRaise ∧ (s.cfg.N = 256 → r.kind ≠ .addressOutOfRange)

/-- A well-formed instruction never raises InvalidRegister (R378 as software's duty, R312). -/
def Obligations.WellFormedNeverInvalidRegister : Prop :=
  ∀ (i : Instr) (s t : State) (r : FaultRecord), WellFormed i = true → exec i s = .next t → s.fr = none →
    t.fr = some r → r.kind ≠ .invalidRegister

/-! ### The step (spec/40_engine_cycle.md) -/

/-- A step runs the decoded instruction: with no stop check due and the three fetch reads in range, a step is `exec` of the
decoded instruction, and the count: of `steps`, which only a configuration with a budget has, and of the model's own
`tally`, which only one with a stop signal and no budget has (log 9). A faulting iteration is not counted (log 10). In a
configuration with neither, the step IS `exec`. -/
def Obligations.StepRunsDecodedInstruction : Prop :=
  ∀ (s : State) (i : Instr), s.es = .running → s.stopDue = false → s.pc + 2 < s.cfg.N →
    decode (s.mem.read s.pc) (s.mem.read (s.pc + 1)) (s.mem.read (s.pc + 2)) = .ok i →
    (∃ t, exec i s = .next t ∧ step s = .next { t with
      steps := if s.cfg.stepBudget ≠ none ∧ t.es ≠ .faulted then s.steps + 1 else s.steps
      tally := if (s.cfg.stopInput = true ∧ s.cfg.stepBudget = none) ∧ t.es ≠ .faulted then s.tally + 1
        else s.tally }) ∧
    (s.cfg.stepBudget = none → s.cfg.stopInput = false → step s = exec i s)

/-- The fetch reads three bytes whatever the opcode: where one of them is outside memory the step faults with the first
address that is (D23), with the opcode recorded if it was read, and changes nothing else (D9, D10). -/
def Obligations.FetchPastMemoryFaults : Prop :=
  ∀ s : State, s.es = .running → s.stopDue = false → s.cfg.N ≤ s.pc + 2 →
    step s = .next { s with
      es := .faulted
      fr := some
        { cause := .addressOutOfRange
            (if s.cfg.N ≤ s.pc then s.pc else if s.cfg.N ≤ s.pc + 1 then s.pc + 1 else s.pc + 2)
          pc := s.pc
          opcode := if s.cfg.N ≤ s.pc then none else some (s.mem.read s.pc) } }

/-- R199, R223: any opcode byte outside the thirteen makes the step fault with InvalidOpcode(opcode, pc), changing nothing
but `es` and `fr`; the lookup comes after the whole fetch, so a fetch fault is the one reported when both apply. -/
def Obligations.InvalidOpcodeFaults : Prop :=
  ∀ s : State, s.es = .running → s.stopDue = false →
    s.mem.read s.pc ∉ ([0x82, 0x47, 0xA2, 0xA0, 0x45, 0x46, 0x50, 0x11, 0xA7, 0x54, 0x55, 0x56, 0x01] : List Byte) →
    (s.pc + 2 < s.cfg.N → step s = .next { s with
      es := .faulted, fr := some ⟨.invalidOpcode (s.mem.read s.pc), s.pc, some (s.mem.read s.pc)⟩ }) ∧
    (s.cfg.N ≤ s.pc + 2 → ∃ t r, step s = .next t ∧ t.fr = some r ∧ r.kind = .addressOutOfRange)

/-- The stop check comes first: an asserted stop signal, or a used-up budget, ends the run in Faulted with kind Stopped, at
the instruction that was not started, before any fetch (D13; `info` is `steps` with a
budget, and the model's own `tally` without, log 9). -/
def Obligations.StopCheckComesFirst : Prop :=
  ∀ s : State, s.es = .running →
    (s.cfg.stopInput = true ∧ s.stop = true) ∨ s.cfg.stepBudget = some s.steps →
    step s = .next { s with es := .faulted, fr := some ⟨.stopped (if s.cfg.stepBudget = none then s.tally else s.steps), s.pc, none⟩ }

/-- Faults are precise (D9): a step that faults writes `es` and the fault record, with the pc of the instruction and the
opcode if one was fetched (D10), and nothing else (for `steps` and the model's own `tally` this is log 10). -/
def Obligations.FaultingStepIsPrecise : Prop :=
  ∀ s t : State, s.es = .running → step s = .next t → t.es = .faulted →
    ∃ cause, t = { s with
      es := .faulted
      fr := some
        { cause := cause
          pc := s.pc
          opcode := if s.stopDue ∨ s.cfg.N ≤ s.pc then none else some (s.mem.read s.pc) } }

/-- Every step answers a next state: the model has no stop of its own (log 2). -/
def Obligations.EveryStepAnswersNext : Prop :=
  ∀ s : State, ∃ t, step s = .next t

/-- Idle, Halted and Faulted are left by no number of steps, and nothing changes in them (R220 of the engine's steps,
R322). -/
def Obligations.NothingMovesOutsideRunning : Prop :=
  ∀ (n : Nat) (s : State), s.es ≠ .running → Host.Core.run Sys2Proof.core n s = .next s

/-- The engine-state machine of R134: steps leave Running only for Halted and Faulted, HALT without a fault being the one
cause of Halted; host transactions go to Idle by reset and from Idle to Running by `run`, and change `es` in no other way. -/
def Obligations.EngineStateTransitions : Prop :=
  (∀ s t : State, step s = .next t →
    (s.es ≠ .running → t.es = s.es) ∧
    (s.es = .running → t.es = .running ∨ t.es = .halted ∨ t.es = .faulted) ∧
    (s.es = .running → t.es = .halted → s.mem.read s.pc = 0x01)) ∧
  ∀ (s : State) (act : HostAction), (s.transact act).1.es =
    match act with
    | .reset _ => .idle
    | .run => if s.es = .idle then .running else s.es
    | .load _ _ => s.es
    | .assertStop => s.es
    | .readOutput => s.es
    | .readFinal => s.es

/-- A configured budget of k ends every run: the iterations left and one more reach Halted or Faulted (D13). -/
def Obligations.BudgetEndsEveryRun : Prop :=
  ∀ (s : State) (k : Nat), s.cfg.stepBudget = some k → s.steps ≤ k → s.es ≠ .idle →
    ∃ t : State, Host.Core.run Sys2Proof.core (k - s.steps + 1) s = .next t ∧ (t.es = .halted ∨ t.es = .faulted)

/-- Without a budget a run need not end: `JMP` to its own address loops for ever (R231, the corner case of R290). -/
def Obligations.SelfJumpNeverEnds : Prop :=
  ∀ (n : Nat) (s : State) (a : Byte) (_ : a.toNat < 8), s.Unbounded → s.pc + 2 < s.cfg.N → s.CodeAt [0x54, a] →
    s.x[a.toNat].toNat = s.pc → Host.Core.run Sys2Proof.core n s = .next s

/-! ### The invariant -/

/-- Every step keeps the invariant: memory canonical and inside N, pc at most 256, a fault record exactly in Faulted with
the pc it faulted at, the budget not exceeded, `steps` and the model's own
`tally` and `stop` (logs 9, 7) unused where not configured, an Idle engine fresh. -/
def Obligations.StepKeepsInvariant : Prop :=
  ∀ s t : State, s.Inv → step s = .next t → t.Inv

/-- The state after reset meets the invariant, in every configuration. -/
def Obligations.ResetMeetsInvariant : Prop :=
  State.reset.Inv ∧ ∀ c : Config, (State.construct c).Inv

/-- Every host transaction keeps the invariant. -/
def Obligations.HostActionsKeepInvariant : Prop :=
  ∀ (s : State) (act : HostAction), s.Inv → (s.transact act).1.Inv

/-! ### Frames, for every instruction -/

/-- Registers: only the destination of LDI, MUL, ADD and POP and the stack pointer of PUSH, POP, CALL and RET change. -/
def Obligations.RegisterFrame : Prop :=
  ∀ (i : Instr) (s t : State), exec i s = .next t → ∀ r : Fin 8,
    (∀ k ∈ (match i with
      | .ldi a _ => [a] | .mul a _ => [a] | .add a _ => [a] | .pop a => [a, 7]
      | .push _ => [7] | .call _ => [7] | .ret => [7]
      | .prn _ => [] | .cmp _ _ => [] | .jmp _ => [] | .jeq _ => [] | .jne _ => [] | .halt => [] : List Byte),
      k.toNat ≠ r.val) →
    t.x[r] = s.x[r]

/-- Flags: every instruction but CMP leaves them, and a CMP that faults leaves them too. -/
def Obligations.FlagFrame : Prop :=
  ∀ (i : Instr) (s t : State), exec i s = .next t →
    ((∀ a b, i ≠ .cmp a b) → t.fl = s.fl) ∧ (s.es ≠ .faulted → t.es = .faulted → t.fl = s.fl)

/-- Memory: an instruction other than PUSH and CALL stores nothing; PUSH and CALL store to the one address `pushAddr`, the
decremented SP; and one that faults stores nothing. -/
def Obligations.MemoryFrame : Prop :=
  ∀ (i : Instr) (s t : State), s.mem.wf → exec i s = .next t →
    (match i with
      | .push _ => ∀ addr, addr ≠ s.pushAddr → t.mem.read addr = s.mem.read addr
      | .call _ => ∀ addr, addr ≠ s.pushAddr → t.mem.read addr = s.mem.read addr
      | _ => ∀ addr, t.mem.read addr = s.mem.read addr) ∧
    (s.es ≠ .faulted → t.es = .faulted → ∀ addr, t.mem.read addr = s.mem.read addr)

/-- Output: PRN of a register appends that one byte, and nothing else touches the log (the log itself is D16). -/
def Obligations.OutputFrame : Prop :=
  ∀ (i : Instr) (s t : State), exec i s = .next t →
    t.out = s.out ++ (match i with
      | .prn a => if h : a.toNat < 8 then [s.x[a.toNat]] else []
      | _ => [])

/-- Control state: no instruction changes the configuration, the step counter, the tally or the stop signal; `es` changes only to
Halted by HALT or to Faulted by a fault, and `fr` only by a fault. -/
def Obligations.ControlStateFrame : Prop :=
  ∀ (i : Instr) (s t : State), exec i s = .next t →
    t.cfg = s.cfg ∧ t.steps = s.steps ∧ t.tally = s.tally ∧ t.stop = s.stop ∧
      ((t.es = s.es ∧ t.fr = s.fr) ∨ (i = .halt ∧ t.es = .halted ∧ t.fr = s.fr) ∨
        (t.es = .faulted ∧ t.fr ≠ none ∧ t.pc = s.pc))

/-- The next pc of every instruction that does not fault (the table of R129, the sums not wrapping, D3; CALL reads its
target after the push, D12). -/
def Obligations.NextPcOfEachInstruction : Prop :=
  ∀ (i : Instr) (s t : State), exec i s = .next t → t.es ≠ .faulted →
    t.pc = match i with
      | .ldi _ _ => s.pc + 3
      | .mul _ _ => s.pc + 3
      | .add _ _ => s.pc + 3
      | .cmp _ _ => s.pc + 3
      | .prn _ => s.pc + 2
      | .push _ => s.pc + 2
      | .pop _ => s.pc + 2
      | .call a => (t.x[a.toNat]?.getD 0).toNat
      | .ret => (s.mem.read s.x[7].toNat).toNat
      | .jmp a => (s.x[a.toNat]?.getD 0).toNat
      | .jeq a => if s.fl = .equal then (s.x[a.toNat]?.getD 0).toNat else s.pc + 2
      | .jne a => if s.fl = .equal then s.pc + 2 else (s.x[a.toNat]?.getD 0).toNat
      | .halt => s.pc

/-- The flags are read by JEQ and JNE alone: any other instruction does the same whatever they were, but for the flags
themselves. -/
def Obligations.FlagsReadOnlyByConditionalJumps : Prop :=
  ∀ (i : Instr) (s t : State) (f : Flag), (∀ a, i ≠ .jeq a) → (∀ a, i ≠ .jne a) → exec i s = .next t →
    ∃ t', exec i { s with fl := f } = .next t' ∧ { t' with fl := t.fl } = t

/-! ### The source's test properties, as runs of steps -/

/-- R242: for all valid register indices and byte values, LDI followed by PRN on the same register reproduces exactly the
loaded value, wherever the two stand. -/
def Obligations.LdiThenPrnReproducesValue : Prop :=
  ∀ (s : State) (i v : Byte) (h : i.toNat < 8), s.Unbounded → s.pc + 5 < s.cfg.N →
    s.CodeAt [0x82, i, v, 0x47, i] →
    Host.Core.run Sys2Proof.core 2 s = .next { s with
      x := s.x.set i.toNat v h, out := s.out ++ [v], pc := s.pc + 5 }

/-- PUSH then POP into any register but SP restores the pushed value and SP (the property derived in R263; the stack is not
empty between the two by D6). -/
def Obligations.PushThenPopRestores : Prop :=
  ∀ (s : State) (i k : Byte) (_ : i.toNat < 7) (_ : k.toNat < 7), s.mem.wf → s.x[7] ≠ 0 → s.x[7] ≤ s.cfg.tos →
    s.x[7].toNat - 1 < s.cfg.N →
    ∃ t u : State, exec (.push i) s = .next t ∧ exec (.pop k) t = .next u ∧
      u.x[k.toNat] = s.x[i.toNat] ∧ (k ≠ i → u.x[i.toNat] = s.x[i.toNat]) ∧ u.x[7] = s.x[7] ∧
      u.mem.read (s.x[7].toNat - 1) = s.x[i.toNat]

/-- CALL then RET returns to the call site plus 2 with SP as before, whatever ran between, if it left SP balanced and the
pushed byte untouched (the property derived in R273; the stack checks are D6 and D7). -/
def Obligations.CallThenRetReturns : Prop :=
  ∀ (s t u : State) (a : Byte), a.toNat < 8 → s.mem.wf → s.x[7] ≠ 0 → s.x[7] ≤ s.cfg.tos →
    s.x[7].toNat - 1 < s.cfg.N → s.pc + 2 < s.cfg.N → exec (.call a) s = .next t →
    u.cfg = s.cfg → u.x[7] = t.x[7] → u.mem.read u.x[7].toNat = t.mem.read t.x[7].toNat →
    ∃ w : State, exec .ret u = .next w ∧ w.pc = s.pc + 2 ∧ w.x[7] = s.x[7]

/-- A byte stored by PUSH is what the very next fetch of its address sees, with no fence (derived in R176): after a PUSH
that stores ANY byte `v` over the byte after itself, the second step runs the instruction that `v` and the two bytes after
it decode to, or faults with InvalidOpcode(v) where `v` is no opcode. R7 may be pushed too: it stores the decremented SP
(D12). That a fault changes nothing else is D9, its record D10. -/
def Obligations.PushedCodeRunsNext : Prop :=
  ∀ (s : State) (a v : Byte) (_ : a.toNat < 8), s.Unbounded → s.mem.wf → s.CodeAt [0x45, a] →
    s.pc + 4 < s.cfg.N → s.x[7].toNat = s.pc + 3 → v = (if a = 7 then s.x[7] - 1 else s.x[a.toNat]) →
    ∃ t : State, exec (.push a) s = .next t ∧ step s = .next t ∧ t.pc = s.pc + 2 ∧ t.mem.read (s.pc + 2) = v ∧
      Host.Core.run Sys2Proof.core 2 s =
        match decode v (s.mem.read (s.pc + 3)) (s.mem.read (s.pc + 4)) with
        | .ok i => exec i t
        | .error _ => .next { t with es := .faulted, fr := some ⟨.invalidOpcode v, s.pc + 2, some v⟩ }

/-! ### Reset and the host interface (spec/70_reset_and_hazards.md) -/

/-- What reset leaves (R145; `fr`, `out` and `steps` by D10, D16, D13): every register and every byte 0, the engine Idle. -/
def Obligations.ResetLeavesZeros : Prop :=
  ∀ (s : State) (c : Config), ∃ t, s.transact (.reset c) = (t, .done) ∧ t.cfg = c ∧ (∀ r : Fin 8, t.x[r] = 0) ∧
    (∀ addr, addr < c.N → memRead t addr = .ok 0) ∧ t.pc = 0 ∧ t.fl = .unset ∧ t.es = .idle ∧ t.fr = none ∧
    t.out = [] ∧ t.steps = 0

/-- R146: the state written by the start of `run`, what it keeps, and the state a program first sees after reset, `load`
and `run`. -/
def Obligations.RunStartInitialises : Prop :=
  (∀ s : State, s.es = .idle → s.transact .run =
    ({ s with pc := 0, x := s.x.set 7 s.cfg.tos, fl := .unset, es := .running, steps := 0 }, .done)) ∧
  ∀ (c : Config) (bytes : List Byte) (start : Nat), start + bytes.length ≤ c.N →
    ∃ t, (((State.construct c).transact (.load bytes start)).1.transact .run).1 = t ∧
      (∀ k, k < bytes.length → t.mem.read (start + k) = bytes.getD k 0) ∧
      (∀ addr, addr < start ∨ start + bytes.length ≤ addr → t.mem.read addr = 0) ∧
      (∀ r : Fin 8, r.val < 7 → t.x[r] = 0) ∧ t.x[7] = c.tos ∧ t.pc = 0 ∧ t.fl = .unset ∧ t.es = .running ∧
      t.fr = none ∧ t.out = []

/-- `load` writes exactly its bytes, in Idle only, whole or not at all (D15; an empty load always succeeds, log 11). -/
def Obligations.LoadWritesWholeOrNothing : Prop :=
  ∀ (s : State) (bytes : List Byte) (start : Nat), s.mem.wf →
    (s.es ≠ .idle → s.transact (.load bytes start) = (s, .notAllowed)) ∧
    (s.es = .idle → bytes = [] → s.transact (.load bytes start) = (s, .done)) ∧
    (s.es = .idle → bytes ≠ [] → s.cfg.N < start + bytes.length →
      s.transact (.load bytes start) = (s, .loadOutOfRange)) ∧
    (s.es = .idle → start + bytes.length ≤ s.cfg.N →
      ∃ t, s.transact (.load bytes start) = (t, .done) ∧ t = { s with mem := t.mem } ∧
        (∀ k, k < bytes.length → t.mem.read (start + k) = bytes.getD k 0) ∧
        ∀ addr, addr < start ∨ start + bytes.length ≤ addr → t.mem.read addr = s.mem.read addr)

/-- `run` outside Idle is refused and changes nothing (D14), and so is stop outside Running or where the signal does not
exist (R351). -/
def Obligations.DisallowedTransactionsChangeNothing : Prop :=
  ∀ s : State, (s.es ≠ .idle → s.transact .run = (s, .notAllowed)) ∧
    (s.es ≠ .running ∨ s.cfg.stopInput = false → s.transact .assertStop = (s, .notAllowed)) ∧
    (s.es = .idle ∨ s.es = .running → s.transact .readFinal = (s, .notAllowed))

/-- The host's stop ends the run at the next iteration's check, in Faulted with kind Stopped, with `pc` at the instruction
that was about to be fetched and nothing cut short (D13). -/
def Obligations.AssertedStopEndsTheRun : Prop :=
  ∀ s : State, s.es = .running → s.cfg.stopInput = true →
    ∃ t u r, s.transact .assertStop = (t, .done) ∧ step t = .next u ∧ u.es = .faulted ∧ u.fr = some r ∧
      r.kind = .stopped ∧ r.pc = s.pc ∧ r.opcode = none ∧ u.pc = s.pc ∧ u.x = s.x ∧ u.mem = s.mem ∧
      u.fl = s.fl ∧ u.out = s.out

/-- R355: the outcome of a run is `Halted` exactly when it ended by executing HALT, and `Faulted` of the fault record
otherwise. -/
def Obligations.OutcomeIsHaltedOnlyByHalt : Prop :=
  ∀ s t : State, s.es = .running → step s = .next t →
    (t.outcome = some .halted ↔
      s.stopDue = false ∧ s.pc + 2 < s.cfg.N ∧
        decode (s.mem.read s.pc) (s.mem.read (s.pc + 1)) (s.mem.read (s.pc + 2)) = .ok .halt) ∧
    (t.es = .faulted → ∃ r, t.fr = some r ∧ t.outcome = some (.faulted r)) ∧
    (t.outcome = none ↔ t.es = .running)
end

