-- ==== Sys2Proof/Laws/Decode.lean ====
section
/-!
SUPPORT. The opcode map and the decoder.
-/

namespace Sys2Proof

/-- A found row is a row of the map, and it is the row of that opcode. -/
theorem lookup_some {op : Byte} {r : OpcodeRow} (h : lookup op = some r) : r ∈ opcodeMap ∧ r.opcode = op :=
  ⟨List.mem_of_find?_eq_some h, by simpa using List.find?_some h⟩

/-- No row is found exactly where no row has the opcode. -/
theorem lookup_none {op : Byte} : lookup op = none ↔ ∀ r ∈ opcodeMap, r.opcode ≠ op := by
  simp [lookup, List.find?_eq_none]

/-- No two rows of the map have the same opcode (spec/30_encoding.md R197). -/
theorem opcodeMap_no_overlap : opcodeMap.Pairwise fun r q => r.opcode ≠ q.opcode := by decide

/-- A decoded instruction was made by the row of its opcode. -/
theorem decode_ok {op a b : Byte} {i : Instr} (h : decode op a b = .ok i) :
    ∃ r, lookup op = some r ∧ i = r.make a b := by
  unfold decode at h
  split at h
  · next r hr => cases h; exact ⟨r, hr, rfl⟩
  · cases h

/-- The decoder rejects only by the name of the opcode. -/
theorem decode_error {op a b : Byte} {e : DecodeError} (h : decode op a b = .error e) :
    lookup op = none ∧ e = .invalidOpcode op := by
  unfold decode at h
  split at h
  · cases h
  · next hn => cases h; exact ⟨hn, rfl⟩

/-- Everything the decoder can answer: one of the thirteen rows. -/
theorem decode_cases {op a b : Byte} {i : Instr} (h : decode op a b = .ok i) :
    (op = 0x82 ∧ i = .ldi a b) ∨ (op = 0x47 ∧ i = .prn a) ∨ (op = 0xA2 ∧ i = .mul a b) ∨ (op = 0xA0 ∧ i = .add a b) ∨
      (op = 0x45 ∧ i = .push a) ∨ (op = 0x46 ∧ i = .pop a) ∨ (op = 0x50 ∧ i = .call a) ∨ (op = 0x11 ∧ i = .ret) ∨
      (op = 0xA7 ∧ i = .cmp a b) ∨ (op = 0x54 ∧ i = .jmp a) ∨ (op = 0x55 ∧ i = .jeq a) ∨ (op = 0x56 ∧ i = .jne a) ∨
      (op = 0x01 ∧ i = .halt) := by
  obtain ⟨r, hr, rfl⟩ := decode_ok h
  obtain ⟨hm, rfl⟩ := lookup_some hr
  simp only [opcodeMap, List.mem_cons, List.not_mem_nil, or_false] at hm
  rcases hm with rfl | rfl | rfl | rfl | rfl | rfl | rfl | rfl | rfl | rfl | rfl | rfl | rfl <;> simp

/-- What each row makes has the row's opcode and the row's length. -/
theorem opcodeMap_make : ∀ r ∈ opcodeMap, ∀ a b, (r.make a b).opcode = r.opcode ∧ (r.make a b).length = r.length := by
  simp only [opcodeMap, List.forall_mem_cons]
  refine ⟨?_, ?_, ?_, ?_, ?_, ?_, ?_, ?_, ?_, ?_, ?_, ?_, ?_, ?_⟩ <;> simp [Instr.opcode, Instr.length]

end Sys2Proof
end

