-- ==== Sys2Proof/Laws/Memory.lean ====
section
/-!
SUPPORT. Memory as data: read after write, and every memory operation keeps the canonical form.
-/

namespace Sys2Proof.Machine

@[simp] theorem Memory.read_nil (a : Nat) : Memory.read [] a = Memory.unlisted := rfl

/-- Below every listed address memory reads as unlisted. -/
theorem Memory.read_eq_unlisted {m : Memory} {a : Nat} (h : ∀ c ∈ m, a < c.1) : m.read a = Memory.unlisted := by
  induction m with
  | nil => rfl
  | cons c m ih =>
    have hc : a < c.1 := h c (by simp)
    have hne : c.1 ≠ a := by omega
    simpa [Memory.read, hne] using ih fun d hd => h d (by simp [hd])

/-- A write leaves no address below all of the old ones and below the written one. -/
theorem Memory.put_above {m : Memory} {a b : Nat} {v : Byte} (h : ∀ c ∈ m, b < c.1) (hb : b < a) :
    ∀ c ∈ Memory.put m a v, b < c.1 := by
  induction m with
  | nil =>
    intro c
    simp only [Memory.put]
    split
    · simp
    · simp only [List.mem_singleton]; rintro rfl; exact hb
  | cons d m ih =>
    have hd : b < d.1 := h d (by simp)
    have hm : ∀ c ∈ m, b < c.1 := fun c hc => h c (by simp [hc])
    intro c
    simp only [Memory.put]
    split_ifs
    · exact h c
    · rintro (_ | ⟨_, h'⟩)
      · exact hb
      · exact h c h'
    · exact hm c
    · rintro (_ | ⟨_, h'⟩)
      · exact hb
      · exact hm c h'
    · rintro (_ | ⟨_, h'⟩)
      · exact hd
      · exact ih hm c h'

/-- A write lists nothing at or above a bound that held before and that the written address meets. -/
theorem Memory.below_put {m : Memory} {n a : Nat} {v : Byte} (h : m.below n) (ha : a < n) : (m.put a v).below n := by
  induction m with
  | nil =>
    intro c
    simp only [Memory.put]
    split
    · simp
    · simp only [List.mem_singleton]; rintro rfl; exact ha
  | cons d m ih =>
    have hd : d.1 < n := h d (by simp)
    have hm : Memory.below n m := fun c hc => h c (by simp [hc])
    intro c
    simp only [Memory.put]
    split_ifs
    · exact h c
    · rintro (_ | ⟨_, h'⟩)
      · exact ha
      · exact h c h'
    · exact hm c
    · rintro (_ | ⟨_, h'⟩)
      · exact ha
      · exact hm c h'
    · rintro (_ | ⟨_, h'⟩)
      · exact hd
      · exact ih hm c h'

theorem Memory.wf_nil : Memory.wf [] := ⟨List.Pairwise.nil, fun _ h => by cases h⟩

theorem Memory.wf_cons {c : Host.Cell} {m : Memory} :
    Memory.wf (c :: m) ↔ (∀ d ∈ m, c.1 < d.1) ∧ c.2 ≠ Memory.unlisted ∧ Memory.wf m := by
  simp only [Memory.wf, List.pairwise_cons, List.mem_cons, forall_eq_or_imp]
  tauto

/-- Every write keeps the canonical form. -/
theorem Memory.wf_put {m : Memory} {a : Nat} {v : Byte} (h : m.wf) : (m.put a v).wf := by
  induction m with
  | nil =>
    simp only [Memory.put]
    split
    · exact Memory.wf_nil
    · exact Memory.wf_cons.2 ⟨by simp, ‹_›, Memory.wf_nil⟩
  | cons d m ih =>
    obtain ⟨hd, hv, hm⟩ := Memory.wf_cons.1 h
    simp only [Memory.put]
    split_ifs with h1 h2 h3 h4
    · exact h
    · refine Memory.wf_cons.2 ⟨fun c hc => ?_, h2, h⟩
      rcases List.mem_cons.1 hc with rfl | hc
      · exact h1
      · exact h1.trans (hd c hc)
    · exact hm
    · exact Memory.wf_cons.2 ⟨fun c hc => h3 ▸ hd c hc, h4, hm⟩
    · exact Memory.wf_cons.2 ⟨Memory.put_above hd (by omega), hv, ih hm⟩

/-- Read after write: the written address reads as written, every other as before (spec/20_memory.md R161). -/
theorem Memory.read_put {m : Memory} (h : m.wf) (a : Nat) (v : Byte) (b : Nat) :
    (m.put a v).read b = if b = a then v else m.read b := by
  induction m with
  | nil => by_cases hb : a = b <;> by_cases hv : v = Memory.unlisted <;> simp [Memory.put, Memory.read, hb, hv, eq_comm]
  | cons d m ih =>
    obtain ⟨hd, -, hm⟩ := Memory.wf_cons.1 h
    have unlistedBelow : ∀ e, e < d.1 → Memory.read (d :: m) e = Memory.unlisted := fun e he =>
      Memory.read_eq_unlisted fun c hc => by
        rcases List.mem_cons.1 hc with rfl | hc
        · exact he
        · exact he.trans (hd c hc)
    rcases lt_trichotomy a d.1 with hlt | heq | hgt
    · by_cases hv : v = Memory.unlisted
      · simp only [Memory.put, hlt, hv, if_true]
        split
        · next hb => rw [hb]; exact unlistedBelow a hlt
        · rfl
      · simp only [Memory.put, hlt, hv, if_true, if_false]
        simp only [Memory.read, eq_comm]
    · obtain ⟨d1, w⟩ := d
      simp only at heq hd
      subst heq
      by_cases hv : v = Memory.unlisted
      · simp only [Memory.put, hv, lt_irrefl, if_true, if_false]
        split
        · next hb => rw [hb]; exact Memory.read_eq_unlisted hd
        · next hb => simp only [Memory.read, Ne.symm hb, if_false]
      · simp only [Memory.put, hv, lt_irrefl, if_true, if_false]
        by_cases hb : b = a
        · simp [Memory.read, hb]
        · simp [Memory.read, hb, Ne.symm hb]
    · have h1 : ¬ a < d.1 := by omega
      have h2 : ¬ a = d.1 := by omega
      simp only [Memory.put, h1, h2, if_false, Memory.read, ih hm]
      by_cases hb : d.1 = b
      · have : b ≠ a := by omega
        simp [hb, this]
      · simp [hb]

theorem Memory.read_put_self {m : Memory} (h : m.wf) (a : Nat) (v : Byte) : (m.put a v).read a = v := by
  simp [Memory.read_put h]

theorem Memory.read_put_ne {m : Memory} (h : m.wf) {a b : Nat} (hb : b ≠ a) (v : Byte) :
    (m.put a v).read b = m.read b := by
  simp [Memory.read_put h, hb]

theorem Memory.wf_putAll {m : Memory} {a : Nat} {vs : List Byte} (h : m.wf) : (m.putAll a vs).wf := by
  induction vs generalizing m a with
  | nil => exact h
  | cons v vs ih => exact ih (Memory.wf_put h)

theorem Memory.below_putAll {m : Memory} {n a : Nat} {vs : List Byte} (h : m.below n) (ha : a + vs.length ≤ n) :
    (m.putAll a vs).below n := by
  induction vs generalizing m a with
  | nil => exact h
  | cons v vs ih =>
    simp only [List.length_cons] at ha
    exact ih (Memory.below_put h (by omega)) (by omega)

/-- Memory after a list was written: the list's bytes at its addresses, every other byte as before. -/
theorem Memory.read_putAll {m : Memory} (h : m.wf) (a : Nat) (vs : List Byte) (b : Nat) :
    (m.putAll a vs).read b = if a ≤ b ∧ b < a + vs.length then vs.getD (b - a) 0 else m.read b := by
  induction vs generalizing m a with
  | nil => simp [Memory.putAll]
  | cons v vs ih =>
    rw [Memory.putAll, ih (Memory.wf_put h), Memory.read_put h]
    rcases lt_trichotomy b a with hlt | rfl | hgt
    · have : ¬ (a + 1 ≤ b) := by omega
      have : ¬ (a ≤ b) := by omega
      have : b ≠ a := by omega
      simp [*]
    · simp
    · obtain ⟨k, rfl⟩ : ∃ k, b = a + 1 + k := ⟨b - (a + 1), by omega⟩
      have h1 : a + 1 + k - a = k + 1 := by omega
      have h2 : a + 1 + k - (a + 1) = k := by omega
      have h3 : a + 1 + k ≠ a := by omega
      have h4 : (a + 1 + k < a + 1 + vs.length) ↔ (a + 1 + k < a + (v :: vs).length) := by
        simp only [List.length_cons]; omega
      simp only [h1, h2, h3, h4, List.getD_cons_succ, if_false]
      have h5 : a ≤ a + 1 + k := by omega
      have h6 : a + 1 ≤ a + 1 + k := by omega
      simp [h5, h6]

end Sys2Proof.Machine
end

