-- ==== Sys2Proof/Laws/State.lean ====
section
/-!
SUPPORT. One lemma per field and update of State, so that no proof unfolds a record update.
-/

namespace Sys2Proof.Machine

/-! ### `setReg` -/

@[simp] theorem State.setReg_cfg (s : State) (i : Fin 8) (v : Nat) : (s.setReg i v).cfg = s.cfg := rfl
@[simp] theorem State.setReg_mem (s : State) (i : Fin 8) (v : Nat) : (s.setReg i v).mem = s.mem := rfl
@[simp] theorem State.setReg_x (s : State) (i : Fin 8) (v : Nat) : (s.setReg i v).x = s.x.set i (Byte.ofNat v) := rfl
@[simp] theorem State.setReg_pc (s : State) (i : Fin 8) (v : Nat) : (s.setReg i v).pc = s.pc := rfl
@[simp] theorem State.setReg_fl (s : State) (i : Fin 8) (v : Nat) : (s.setReg i v).fl = s.fl := rfl
@[simp] theorem State.setReg_es (s : State) (i : Fin 8) (v : Nat) : (s.setReg i v).es = s.es := rfl
@[simp] theorem State.setReg_fr (s : State) (i : Fin 8) (v : Nat) : (s.setReg i v).fr = s.fr := rfl
@[simp] theorem State.setReg_out (s : State) (i : Fin 8) (v : Nat) : (s.setReg i v).out = s.out := rfl
@[simp] theorem State.setReg_steps (s : State) (i : Fin 8) (v : Nat) : (s.setReg i v).steps = s.steps := rfl
@[simp] theorem State.setReg_stop (s : State) (i : Fin 8) (v : Nat) : (s.setReg i v).stop = s.stop := rfl
@[simp] theorem State.setReg_tally (s : State) (i : Fin 8) (v : Nat) : (s.setReg i v).tally = s.tally := rfl

/-- A register reads as written, modulo 256, and every other register as before (R123). -/
theorem State.reg_setReg (s : State) (i j : Fin 8) (v : Nat) :
    (s.setReg i v).reg j = if i = j then Byte.ofNat v else s.reg j := by
  simp only [State.reg, State.setReg, Fin.getElem_fin, Vector.getElem_set, Fin.ext_iff]

@[simp] theorem State.reg_setReg_self (s : State) (i : Fin 8) (v : Nat) : (s.setReg i v).reg i = Byte.ofNat v := by
  simp [State.reg_setReg]

theorem State.reg_setReg_ne (s : State) {i j : Fin 8} (h : i ≠ j) (v : Nat) : (s.setReg i v).reg j = s.reg j := by
  simp [State.reg_setReg, h]

@[simp] theorem State.sp_setReg_spIndex (s : State) (v : Nat) : (s.setReg spIndex v).sp = Byte.ofNat v :=
  s.reg_setReg_self spIndex v

/-- Writing a byte back as a number writes that byte. -/
@[simp] theorem Byte.ofNat_toNat (b : Byte) : Byte.ofNat b.toNat = b := by simp [Byte.ofNat]

/-! ### `emit` -/

@[simp] theorem State.emit_cfg (s : State) (v : Byte) : (s.emit v).cfg = s.cfg := rfl
@[simp] theorem State.emit_mem (s : State) (v : Byte) : (s.emit v).mem = s.mem := rfl
@[simp] theorem State.emit_x (s : State) (v : Byte) : (s.emit v).x = s.x := rfl
@[simp] theorem State.emit_pc (s : State) (v : Byte) : (s.emit v).pc = s.pc := rfl
@[simp] theorem State.emit_fl (s : State) (v : Byte) : (s.emit v).fl = s.fl := rfl
@[simp] theorem State.emit_es (s : State) (v : Byte) : (s.emit v).es = s.es := rfl
@[simp] theorem State.emit_fr (s : State) (v : Byte) : (s.emit v).fr = s.fr := rfl
@[simp] theorem State.emit_out (s : State) (v : Byte) : (s.emit v).out = s.out ++ [v] := rfl
@[simp] theorem State.emit_steps (s : State) (v : Byte) : (s.emit v).steps = s.steps := rfl
@[simp] theorem State.emit_stop (s : State) (v : Byte) : (s.emit v).stop = s.stop := rfl
@[simp] theorem State.emit_tally (s : State) (v : Byte) : (s.emit v).tally = s.tally := rfl

@[simp] theorem State.reg_emit (s : State) (v : Byte) (i : Fin 8) : (s.emit v).reg i = s.reg i := rfl

/-! ### `setFlag` -/

@[simp] theorem State.setFlag_cfg (s : State) (f : Flag) : (s.setFlag f).cfg = s.cfg := rfl
@[simp] theorem State.setFlag_mem (s : State) (f : Flag) : (s.setFlag f).mem = s.mem := rfl
@[simp] theorem State.setFlag_x (s : State) (f : Flag) : (s.setFlag f).x = s.x := rfl
@[simp] theorem State.setFlag_pc (s : State) (f : Flag) : (s.setFlag f).pc = s.pc := rfl
@[simp] theorem State.setFlag_fl (s : State) (f : Flag) : (s.setFlag f).fl = f := rfl
@[simp] theorem State.setFlag_es (s : State) (f : Flag) : (s.setFlag f).es = s.es := rfl
@[simp] theorem State.setFlag_fr (s : State) (f : Flag) : (s.setFlag f).fr = s.fr := rfl
@[simp] theorem State.setFlag_out (s : State) (f : Flag) : (s.setFlag f).out = s.out := rfl
@[simp] theorem State.setFlag_steps (s : State) (f : Flag) : (s.setFlag f).steps = s.steps := rfl
@[simp] theorem State.setFlag_stop (s : State) (f : Flag) : (s.setFlag f).stop = s.stop := rfl
@[simp] theorem State.setFlag_tally (s : State) (f : Flag) : (s.setFlag f).tally = s.tally := rfl

@[simp] theorem State.reg_setFlag (s : State) (f : Flag) (i : Fin 8) : (s.setFlag f).reg i = s.reg i := rfl

/-! ### `takeFault` -/

@[simp] theorem State.takeFault_cfg (s : State) (c : FaultCause) (op : Option Byte) : (s.takeFault c op).cfg = s.cfg := rfl
@[simp] theorem State.takeFault_mem (s : State) (c : FaultCause) (op : Option Byte) : (s.takeFault c op).mem = s.mem := rfl
@[simp] theorem State.takeFault_x (s : State) (c : FaultCause) (op : Option Byte) : (s.takeFault c op).x = s.x := rfl
@[simp] theorem State.takeFault_pc (s : State) (c : FaultCause) (op : Option Byte) : (s.takeFault c op).pc = s.pc := rfl
@[simp] theorem State.takeFault_fl (s : State) (c : FaultCause) (op : Option Byte) : (s.takeFault c op).fl = s.fl := rfl
@[simp] theorem State.takeFault_es (s : State) (c : FaultCause) (op : Option Byte) : (s.takeFault c op).es = .faulted := rfl
@[simp] theorem State.takeFault_fr (s : State) (c : FaultCause) (op : Option Byte) : (s.takeFault c op).fr = some ⟨c, s.pc, op⟩ := rfl
@[simp] theorem State.takeFault_out (s : State) (c : FaultCause) (op : Option Byte) : (s.takeFault c op).out = s.out := rfl
@[simp] theorem State.takeFault_steps (s : State) (c : FaultCause) (op : Option Byte) : (s.takeFault c op).steps = s.steps := rfl
@[simp] theorem State.takeFault_stop (s : State) (c : FaultCause) (op : Option Byte) : (s.takeFault c op).stop = s.stop := rfl
@[simp] theorem State.takeFault_tally (s : State) (c : FaultCause) (op : Option Byte) : (s.takeFault c op).tally = s.tally := rfl

/-! ### `startRun` -/

@[simp] theorem State.startRun_cfg (s : State) : s.startRun.cfg = s.cfg := rfl
@[simp] theorem State.startRun_mem (s : State) : s.startRun.mem = s.mem := rfl
@[simp] theorem State.startRun_x (s : State) : s.startRun.x = s.x.set spIndex (Byte.ofNat s.cfg.tos.toNat) := rfl
@[simp] theorem State.startRun_pc (s : State) : s.startRun.pc = 0 := rfl
@[simp] theorem State.startRun_fl (s : State) : s.startRun.fl = .unset := rfl
@[simp] theorem State.startRun_es (s : State) : s.startRun.es = .running := rfl
@[simp] theorem State.startRun_fr (s : State) : s.startRun.fr = s.fr := rfl
@[simp] theorem State.startRun_out (s : State) : s.startRun.out = s.out := rfl
@[simp] theorem State.startRun_steps (s : State) : s.startRun.steps = 0 := rfl
@[simp] theorem State.startRun_stop (s : State) : s.startRun.stop = s.stop := rfl
@[simp] theorem State.startRun_tally (s : State) : s.startRun.tally = s.tally := rfl

/-! ### `countStep` -/

@[simp] theorem State.countStep_cfg (s : State) : s.countStep.cfg = s.cfg := by unfold State.countStep; split <;> rfl
@[simp] theorem State.countStep_mem (s : State) : s.countStep.mem = s.mem := by unfold State.countStep; split <;> rfl
@[simp] theorem State.countStep_x (s : State) : s.countStep.x = s.x := by unfold State.countStep; split <;> rfl
@[simp] theorem State.countStep_pc (s : State) : s.countStep.pc = s.pc := by unfold State.countStep; split <;> rfl
@[simp] theorem State.countStep_fl (s : State) : s.countStep.fl = s.fl := by unfold State.countStep; split <;> rfl
@[simp] theorem State.countStep_es (s : State) : s.countStep.es = s.es := by unfold State.countStep; split <;> rfl
@[simp] theorem State.countStep_fr (s : State) : s.countStep.fr = s.fr := by unfold State.countStep; split <;> rfl
@[simp] theorem State.countStep_out (s : State) : s.countStep.out = s.out := by unfold State.countStep; split <;> rfl
@[simp] theorem State.countStep_stop (s : State) : s.countStep.stop = s.stop := by unfold State.countStep; split <;> rfl

theorem State.countStep_of_faulted {s : State} (h : s.es = .faulted) : s.countStep = s := if_pos h

theorem State.countStep_of_not_faulted {s : State} (h : s.es ≠ .faulted) :
    s.countStep = { s with
      steps := if s.counting then s.steps + 1 else s.steps
      tally := if s.tallying then s.tally + 1 else s.tally } := if_neg h

theorem State.countStep_steps (s : State) :
    s.countStep.steps = if s.counting ∧ s.es ≠ .faulted then s.steps + 1 else s.steps := by
  by_cases h : s.es = .faulted
  · simp [State.countStep_of_faulted h, h]
  · simp [State.countStep_of_not_faulted h, h]

theorem State.countStep_tally (s : State) :
    s.countStep.tally = if s.tallying ∧ s.es ≠ .faulted then s.tally + 1 else s.tally := by
  by_cases h : s.es = .faulted
  · simp [State.countStep_of_faulted h, h]
  · simp [State.countStep_of_not_faulted h, h]

theorem State.countStep_of_not_counting {s : State} (h : s.counting = false) (ht : s.tallying = false) :
    s.countStep = s := by
  simp [State.countStep, h, ht]

/-! ### `construct` -/

@[simp] theorem State.construct_cfg (c : Config) : (State.construct c).cfg = c := rfl
@[simp] theorem State.construct_mem (c : Config) : (State.construct c).mem = [] := rfl
@[simp] theorem State.construct_x (c : Config) : (State.construct c).x = Vector.replicate 8 0 := rfl
@[simp] theorem State.construct_pc (c : Config) : (State.construct c).pc = 0 := rfl
@[simp] theorem State.construct_fl (c : Config) : (State.construct c).fl = .unset := rfl
@[simp] theorem State.construct_es (c : Config) : (State.construct c).es = .idle := rfl
@[simp] theorem State.construct_fr (c : Config) : (State.construct c).fr = none := rfl
@[simp] theorem State.construct_out (c : Config) : (State.construct c).out = [] := rfl
@[simp] theorem State.construct_steps (c : Config) : (State.construct c).steps = 0 := rfl
@[simp] theorem State.construct_stop (c : Config) : (State.construct c).stop = false := rfl
@[simp] theorem State.construct_tally (c : Config) : (State.construct c).tally = 0 := rfl

end Sys2Proof.Machine
end

