-- ==== Sys2Proof/Laws/Ops.lean ====
section
/-!
SUPPORT. What each shared operation can do, said once.
-/

namespace Sys2Proof.Machine

/-! ### Register operands -/

theorem regIdx_of_lt {k : Byte} (h : k.toNat < 8) : regIdx k = .ok ⟨k.toNat, h⟩ := dif_pos h

theorem regIdx_of_ge {k : Byte} (h : 8 ≤ k.toNat) : regIdx k = .error (.invalidRegister k) := dif_neg (by omega)

theorem regIdx_cases (k : Byte) :
    (∃ h : k.toNat < 8, regIdx k = .ok ⟨k.toNat, h⟩) ∨ (8 ≤ k.toNat ∧ regIdx k = .error (.invalidRegister k)) := by
  by_cases h : k.toNat < 8
  · exact .inl ⟨h, regIdx_of_lt h⟩
  · exact .inr ⟨by omega, regIdx_of_ge (by omega)⟩

theorem regOperand_of_lt {s : State} {k : Byte} (h : k.toNat < 8) : regOperand s k = .ok (s.reg ⟨k.toNat, h⟩) := by
  simp [regOperand, regIdx_of_lt h]

theorem regOperand_of_ge {s : State} {k : Byte} (h : 8 ≤ k.toNat) : regOperand s k = .error (.invalidRegister k) := by
  simp [regOperand, regIdx_of_ge h]

theorem regOperand_cases (s : State) (k : Byte) :
    (∃ h : k.toNat < 8, regOperand s k = .ok (s.reg ⟨k.toNat, h⟩)) ∨
      (8 ≤ k.toNat ∧ regOperand s k = .error (.invalidRegister k)) := by
  by_cases h : k.toNat < 8
  · exact .inl ⟨h, regOperand_of_lt h⟩
  · exact .inr ⟨by omega, regOperand_of_ge (by omega)⟩

/-! ### Memory access -/

theorem memRead_of_lt {s : State} {addr : Nat} (h : addr < s.cfg.N) : memRead s addr = .ok (s.mem.read addr) := if_pos h

theorem memRead_of_ge {s : State} {addr : Nat} (h : s.cfg.N ≤ addr) :
    memRead s addr = .error (.addressOutOfRange addr) := if_neg (by omega)

theorem memWrite_of_lt {s : State} {addr : Nat} {v : Byte} (h : addr < s.cfg.N) :
    memWrite s addr v = .ok { s with mem := s.mem.put addr v } := if_pos h

theorem memWrite_of_ge {s : State} {addr : Nat} {v : Byte} (h : s.cfg.N ≤ addr) :
    memWrite s addr v = .error (.addressOutOfRange addr) := if_neg (by omega)

/-- A checked write keeps the canonical form and the range of memory. -/
theorem memWrite_keeps_memory {s t : State} {addr : Nat} {v : Byte} (h : memWrite s addr v = .ok t)
    (hw : s.mem.wf) (hb : s.mem.below s.cfg.N) : t.mem.wf ∧ t.mem.below t.cfg.N := by
  unfold memWrite at h
  split at h
  · cases h; exact ⟨Memory.wf_put hw, Memory.below_put hb ‹_›⟩
  · cases h

/-! ### Stack -/

theorem State.sp_eq (s : State) : s.sp = s.x[7] := rfl

theorem claimSlot_of_zero {s : State} (h : s.sp = 0) : claimSlot s = .error (.stackOverflow 0) := by simp [claimSlot, h]

theorem claimSlot_of_ne {s : State} (h : s.sp ≠ 0) : claimSlot s = .ok (s.setReg spIndex s.pushAddr) := by
  rw [claimSlot, if_neg h, State.pushAddr]

/-- The decremented SP is the address a push stores to. -/
theorem State.sp_claimed (s : State) : (s.setReg spIndex s.pushAddr).sp.toNat = s.pushAddr := by
  simp only [State.sp_setReg_spIndex, Byte.ofNat, BitVec.toNat_ofNat, State.pushAddr]
  have := s.sp.isLt
  omega

theorem readTop_of_empty {s : State} (h : s.cfg.tos ≤ s.sp) : readTop s = .error (.stackUnderflow s.sp) := by
  simp [readTop, h]

theorem readTop_of_lt {s : State} (h : s.sp < s.cfg.tos) : readTop s = memRead s s.sp.toNat := by
  simp [readTop, BitVec.not_le.2 h]

/-! ### The end of a step -/

@[simp] theorem conclude_advance (i : Instr) (s t : State) (p : Nat) :
    conclude i s (.ok (t, .advance p)) = .next { t with pc := p } := rfl

@[simp] theorem conclude_halt (i : Instr) (s t : State) : conclude i s (.ok (t, .halt)) = .next { t with es := .halted } := rfl

@[simp] theorem conclude_error (i : Instr) (s : State) (c : FaultCause) :
    conclude i s (.error c) = .next (s.takeFault c (some i.opcode)) := rfl

/-- Every result of a handler ends in a next state: one of the two commits, or the fault on the state of the beginning. -/
theorem conclude_cases (i : Instr) (s : State) (h : Handled) :
    (∃ t p, h = .ok (t, .advance p) ∧ conclude i s h = .next { t with pc := p }) ∨
      (∃ t, h = .ok (t, .halt) ∧ conclude i s h = .next { t with es := .halted }) ∨
      (∃ c, h = .error c ∧ conclude i s h = .next (s.takeFault c (some i.opcode))) := by
  rcases h with c | ⟨t, p | _⟩
  · exact .inr (.inr ⟨c, rfl, rfl⟩)
  · exact .inl ⟨t, p, rfl, rfl⟩
  · exact .inr (.inl ⟨t, rfl, rfl⟩)

/-! ### Fetch and the loop -/

theorem fetch_of_fits {s : State} (h : s.pc + 2 < s.cfg.N) :
    fetch s = .ok ⟨s.mem.read s.pc, s.mem.read (s.pc + 1), s.mem.read (s.pc + 2)⟩ := by
  have h0 : s.pc < s.cfg.N := by omega
  have h1 : s.pc + 1 < s.cfg.N := by omega
  simp [fetch, memRead_of_lt h0, memRead_of_lt h1, memRead_of_lt h]

/-- A fetch succeeds only where its three reads are in range, and gives the three bytes there. -/
theorem fetch_ok {s : State} {f : Fetched} (h : fetch s = .ok f) :
    s.pc + 2 < s.cfg.N ∧ f = ⟨s.mem.read s.pc, s.mem.read (s.pc + 1), s.mem.read (s.pc + 2)⟩ := by
  by_cases hf : s.pc + 2 < s.cfg.N
  · rw [fetch_of_fits hf] at h; cases h; exact ⟨hf, rfl⟩
  · have h2 : s.cfg.N ≤ s.pc + 2 := by omega
    unfold fetch at h
    split at h
    · cases h
    · split at h
      · cases h
      · rw [memRead_of_ge h2] at h; cases h

theorem step_of_not_running {s : State} (h : s.es ≠ .running) : step s = .next s := by
  cases hs : s.es <;> simp_all [step, engineStep]

theorem step_of_running {s : State} (h : s.es = .running) : step s = iterate s := by simp [step, engineStep, h]

@[simp] theorem counted_next (t : State) : counted (.next t) = .next t.countStep := rfl

theorem State.not_stopDue_of_unbounded {s : State} (h : s.Unbounded) : s.stopDue = false := by
  simp [State.stopDue, h.2.1, h.2.2]

theorem State.not_counting_of_unbounded {s : State} (h : s.Unbounded) : s.counting = false := by
  simp [State.counting, h.2.1]

theorem State.not_tallying_of_unbounded {s : State} (h : s.Unbounded) : s.tallying = false := by
  simp [State.tallying, h.2.2]

theorem State.started_of_counting {s : State} (h : s.counting = true) : s.started = s.steps := if_pos h

theorem State.started_of_not_counting {s : State} (h : s.counting = false) : s.started = s.tally := by
  simp [State.started, h]

theorem N_pos (c : Config) : 0 < c.N := Nat.succ_pos _

theorem N_le (c : Config) : c.N ≤ 256 := by
  have := c.memTop.isLt
  simp only [Config.N]
  omega

end Sys2Proof.Machine
end

