-- ==== Sys2Proof/Laws/Exec.lean ====
section
/-!
SUPPORT. One inversion lemma per meaning: everything it can answer, in the model's own operations.
-/

namespace Sys2Proof.Machine

variable (s : State) (a b : Byte)

theorem execLdi_cases :
    (∃ h : a.toNat < 8, execLdi a b s = .next { s.setReg ⟨a.toNat, h⟩ b.toNat with pc := s.pc + 3 }) ∨
      (8 ≤ a.toNat ∧ execLdi a b s = .next (s.takeFault (.invalidRegister a) (some 0x82))) := by
  rcases regIdx_cases a with ⟨h, e⟩ | ⟨h, e⟩
  · exact .inl ⟨h, by simp only [execLdi, e]; rfl⟩
  · exact .inr ⟨h, by simp only [execLdi, e]; rfl⟩

theorem execPrn_cases :
    (∃ h : a.toNat < 8, execPrn a s = .next { s.emit (s.reg ⟨a.toNat, h⟩) with pc := s.pc + 2 }) ∨
      (8 ≤ a.toNat ∧ execPrn a s = .next (s.takeFault (.invalidRegister a) (some 0x47))) := by
  rcases regOperand_cases s a with ⟨h, e⟩ | ⟨h, e⟩
  · exact .inl ⟨h, by simp only [execPrn, e]; rfl⟩
  · exact .inr ⟨h, by simp only [execPrn, e]; rfl⟩

theorem execMul_cases :
    (∃ (ha : a.toNat < 8) (hb : b.toNat < 8), execMul a b s = .next
      { s.setReg ⟨a.toNat, ha⟩ ((s.reg ⟨a.toNat, ha⟩).toNat * (s.reg ⟨b.toNat, hb⟩).toNat) with pc := s.pc + 3 }) ∨
      (8 ≤ a.toNat ∧ execMul a b s = .next (s.takeFault (.invalidRegister a) (some 0xA2))) ∨
      (a.toNat < 8 ∧ 8 ≤ b.toNat ∧ execMul a b s = .next (s.takeFault (.invalidRegister b) (some 0xA2))) := by
  rcases regIdx_cases a with ⟨ha, ea⟩ | ⟨ha, ea⟩
  · rcases regIdx_cases b with ⟨hb, eb⟩ | ⟨hb, eb⟩
    · exact .inl ⟨ha, hb, by simp only [execMul, ea, eb]; rfl⟩
    · exact .inr (.inr ⟨ha, hb, by simp only [execMul, ea, eb]; rfl⟩)
  · exact .inr (.inl ⟨ha, by simp only [execMul, ea]; rfl⟩)

theorem execAdd_cases :
    (∃ (ha : a.toNat < 8) (hb : b.toNat < 8), execAdd a b s = .next
      { s.setReg ⟨a.toNat, ha⟩ (Byte.ofNat ((s.reg ⟨a.toNat, ha⟩).toNat + (s.reg ⟨b.toNat, hb⟩).toNat)).toNat
        with pc := s.pc + 3 }) ∨
      (8 ≤ a.toNat ∧ execAdd a b s = .next (s.takeFault (.invalidRegister a) (some 0xA0))) ∨
      (a.toNat < 8 ∧ 8 ≤ b.toNat ∧ execAdd a b s = .next (s.takeFault (.invalidRegister b) (some 0xA0))) := by
  rcases regIdx_cases a with ⟨ha, ea⟩ | ⟨ha, ea⟩
  · rcases regIdx_cases b with ⟨hb, eb⟩ | ⟨hb, eb⟩
    · exact .inl ⟨ha, hb, by simp only [execAdd, ea, eb]; rfl⟩
    · exact .inr (.inr ⟨ha, hb, by simp only [execAdd, ea, eb]; rfl⟩)
  · exact .inr (.inl ⟨ha, by simp only [execAdd, ea]; rfl⟩)

/-- What a push leaves of the state but for the pc. -/
def State.pushed (s : State) (v : Byte) : State :=
  { s.setReg spIndex s.pushAddr with mem := s.mem.put s.pushAddr v }

/-- The store half of PUSH and CALL. -/
theorem memWrite_claimed (v : Byte) :
    let claimed := s.setReg spIndex s.pushAddr
    (s.pushAddr < s.cfg.N ∧ memWrite claimed claimed.sp.toNat v = .ok (s.pushed v)) ∨
      (s.cfg.N ≤ s.pushAddr ∧ memWrite claimed claimed.sp.toNat v = .error (.addressOutOfRange s.pushAddr)) := by
  simp only [State.sp_claimed]
  by_cases h : s.pushAddr < s.cfg.N
  · exact .inl ⟨h, memWrite_of_lt h⟩
  · exact .inr ⟨by omega, memWrite_of_ge (by simpa using h)⟩

theorem execPush_cases :
    (∃ h : a.toNat < 8, s.sp ≠ 0 ∧ s.pushAddr < s.cfg.N ∧ execPush a s = .next
      { s.pushed ((s.setReg spIndex s.pushAddr).reg ⟨a.toNat, h⟩) with pc := s.pc + 2 }) ∨
      (8 ≤ a.toNat ∧ execPush a s = .next (s.takeFault (.invalidRegister a) (some 0x45))) ∨
      (a.toNat < 8 ∧ s.sp = 0 ∧ execPush a s = .next (s.takeFault (.stackOverflow 0) (some 0x45))) ∨
      (a.toNat < 8 ∧ s.sp ≠ 0 ∧ s.cfg.N ≤ s.pushAddr ∧
        execPush a s = .next (s.takeFault (.addressOutOfRange s.pushAddr) (some 0x45))) := by
  rcases regIdx_cases a with ⟨h, e⟩ | ⟨h, e⟩
  · by_cases hs : s.sp = 0
    · exact .inr (.inr (.inl ⟨h, hs, by simp only [execPush, e, claimSlot_of_zero hs]; rfl⟩))
    · rcases memWrite_claimed s ((s.setReg spIndex s.pushAddr).reg ⟨a.toNat, h⟩) with ⟨hN, ew⟩ | ⟨hN, ew⟩
      · exact .inl ⟨h, hs, hN, by simp only [execPush, e, claimSlot_of_ne hs, bind, Except.bind, ew]; rfl⟩
      · exact .inr (.inr (.inr ⟨h, hs, hN, by
          simp only [execPush, e, claimSlot_of_ne hs, bind, Except.bind, ew]; rfl⟩))
  · exact .inr (.inl ⟨h, by simp only [execPush, e]; rfl⟩)

theorem readTop_cases :
    (s.sp < s.cfg.tos ∧ s.sp.toNat < s.cfg.N ∧ readTop s = .ok (s.mem.read s.sp.toNat)) ∨
      (s.cfg.tos ≤ s.sp ∧ readTop s = .error (.stackUnderflow s.sp)) ∨
      (s.sp < s.cfg.tos ∧ s.cfg.N ≤ s.sp.toNat ∧ readTop s = .error (.addressOutOfRange s.sp.toNat)) := by
  rcases BitVec.le_total s.cfg.tos s.sp with h | h
  · exact .inr (.inl ⟨h, readTop_of_empty h⟩)
  · by_cases hlt : s.sp < s.cfg.tos
    · by_cases hN : s.sp.toNat < s.cfg.N
      · exact .inl ⟨hlt, hN, (readTop_of_lt hlt).trans (memRead_of_lt hN)⟩
      · exact .inr (.inr ⟨hlt, by omega, (readTop_of_lt hlt).trans (memRead_of_ge (by omega))⟩)
    · exact .inr (.inl ⟨BitVec.not_lt.1 hlt, readTop_of_empty (BitVec.not_lt.1 hlt)⟩)

theorem execPop_cases :
    (∃ h : a.toNat < 8, s.sp < s.cfg.tos ∧ s.sp.toNat < s.cfg.N ∧ execPop a s = .next
      { (s.setReg ⟨a.toNat, h⟩ (s.mem.read s.sp.toNat).toNat).releaseSlot with pc := s.pc + 2 }) ∨
      (8 ≤ a.toNat ∧ execPop a s = .next (s.takeFault (.invalidRegister a) (some 0x46))) ∨
      (a.toNat < 8 ∧ s.cfg.tos ≤ s.sp ∧ execPop a s = .next (s.takeFault (.stackUnderflow s.sp) (some 0x46))) ∨
      (a.toNat < 8 ∧ s.sp < s.cfg.tos ∧ s.cfg.N ≤ s.sp.toNat ∧
        execPop a s = .next (s.takeFault (.addressOutOfRange s.sp.toNat) (some 0x46))) := by
  rcases regIdx_cases a with ⟨h, e⟩ | ⟨h, e⟩
  · rcases readTop_cases s with ⟨h1, h2, er⟩ | ⟨h1, er⟩ | ⟨h1, h2, er⟩
    · exact .inl ⟨h, h1, h2, by simp only [execPop, e, er]; rfl⟩
    · exact .inr (.inr (.inl ⟨h, h1, by simp only [execPop, e, er]; rfl⟩))
    · exact .inr (.inr (.inr ⟨h, h1, h2, by simp only [execPop, e, er]; rfl⟩))
  · exact .inr (.inl ⟨h, by simp only [execPop, e]; rfl⟩)

theorem execCall_cases :
    (∃ h : a.toNat < 8, s.sp ≠ 0 ∧ s.pushAddr < s.cfg.N ∧ execCall a s = .next
      { s.pushed (returnAddress s) with pc := ((s.setReg spIndex s.pushAddr).reg ⟨a.toNat, h⟩).toNat }) ∨
      (8 ≤ a.toNat ∧ execCall a s = .next (s.takeFault (.invalidRegister a) (some 0x50))) ∨
      (a.toNat < 8 ∧ s.sp = 0 ∧ execCall a s = .next (s.takeFault (.stackOverflow 0) (some 0x50))) ∨
      (a.toNat < 8 ∧ s.sp ≠ 0 ∧ s.cfg.N ≤ s.pushAddr ∧
        execCall a s = .next (s.takeFault (.addressOutOfRange s.pushAddr) (some 0x50))) := by
  rcases regIdx_cases a with ⟨h, e⟩ | ⟨h, e⟩
  · by_cases hs : s.sp = 0
    · exact .inr (.inr (.inl ⟨h, hs, by simp only [execCall, e, claimSlot_of_zero hs]; rfl⟩))
    · rcases memWrite_claimed s (returnAddress s) with ⟨hN, ew⟩ | ⟨hN, ew⟩
      · exact .inl ⟨h, hs, hN, by simp only [execCall, e, claimSlot_of_ne hs, bind, Except.bind, ew]; rfl⟩
      · exact .inr (.inr (.inr ⟨h, hs, hN, by
          simp only [execCall, e, claimSlot_of_ne hs, bind, Except.bind, ew]; rfl⟩))
  · exact .inr (.inl ⟨h, by simp only [execCall, e]; rfl⟩)

theorem execRet_cases :
    (s.sp < s.cfg.tos ∧ s.sp.toNat < s.cfg.N ∧ execRet s = .next
      { s.releaseSlot with pc := (s.mem.read s.sp.toNat).toNat }) ∨
      (s.cfg.tos ≤ s.sp ∧ execRet s = .next (s.takeFault (.stackUnderflow s.sp) (some 0x11))) ∨
      (s.sp < s.cfg.tos ∧ s.cfg.N ≤ s.sp.toNat ∧
        execRet s = .next (s.takeFault (.addressOutOfRange s.sp.toNat) (some 0x11))) := by
  rcases readTop_cases s with ⟨h1, h2, er⟩ | ⟨h1, er⟩ | ⟨h1, h2, er⟩
  · exact .inl ⟨h1, h2, by simp only [execRet, er]; rfl⟩
  · exact .inr (.inl ⟨h1, by simp only [execRet, er]; rfl⟩)
  · exact .inr (.inr ⟨h1, h2, by simp only [execRet, er]; rfl⟩)

theorem execCmp_cases :
    (∃ (ha : a.toNat < 8) (hb : b.toNat < 8), execCmp a b s = .next
      { s.setFlag (compare (s.reg ⟨a.toNat, ha⟩) (s.reg ⟨b.toNat, hb⟩)) with pc := s.pc + 3 }) ∨
      (8 ≤ a.toNat ∧ execCmp a b s = .next (s.takeFault (.invalidRegister a) (some 0xA7))) ∨
      (a.toNat < 8 ∧ 8 ≤ b.toNat ∧ execCmp a b s = .next (s.takeFault (.invalidRegister b) (some 0xA7))) := by
  rcases regOperand_cases s a with ⟨ha, ea⟩ | ⟨ha, ea⟩
  · rcases regOperand_cases s b with ⟨hb, eb⟩ | ⟨hb, eb⟩
    · exact .inl ⟨ha, hb, by simp only [execCmp, ea, eb]; rfl⟩
    · exact .inr (.inr ⟨ha, hb, by simp only [execCmp, ea, eb]; rfl⟩)
  · exact .inr (.inl ⟨ha, by simp only [execCmp, ea]; rfl⟩)

/-- The taken arm of the three jumps. -/
theorem conclude_jumpToReg (i : Instr) :
    (∃ h : a.toNat < 8, conclude i s (jumpToReg a s) = .next { s with pc := (s.reg ⟨a.toNat, h⟩).toNat }) ∨
      (8 ≤ a.toNat ∧ conclude i s (jumpToReg a s) = .next (s.takeFault (.invalidRegister a) (some i.opcode))) := by
  rcases regOperand_cases s a with ⟨h, e⟩ | ⟨h, e⟩
  · exact .inl ⟨h, by simp only [jumpToReg, e]; rfl⟩
  · exact .inr ⟨h, by simp only [jumpToReg, e]; rfl⟩

theorem execJmp_cases :
    (∃ h : a.toNat < 8, execJmp a s = .next { s with pc := (s.reg ⟨a.toNat, h⟩).toNat }) ∨
      (8 ≤ a.toNat ∧ execJmp a s = .next (s.takeFault (.invalidRegister a) (some 0x54))) :=
  conclude_jumpToReg s a (.jmp a)

theorem Flag.isEqual_iff (f : Flag) : f.isEqual = true ↔ f = .equal := by cases f <;> simp [Flag.isEqual]

theorem execJeq_cases :
    (s.fl ≠ .equal ∧ execJeq a s = .next { s with pc := s.pc + 2 }) ∨
      (s.fl = .equal ∧ ∃ h : a.toNat < 8, execJeq a s = .next { s with pc := (s.reg ⟨a.toNat, h⟩).toNat }) ∨
      (s.fl = .equal ∧ 8 ≤ a.toNat ∧ execJeq a s = .next (s.takeFault (.invalidRegister a) (some 0x55))) := by
  by_cases hf : s.fl = .equal
  · have e : execJeq a s = conclude (.jeq a) s (jumpToReg a s) := by simp [execJeq, hf, Flag.isEqual]
    rw [e]
    exact .inr ((conclude_jumpToReg s a (.jeq a)).imp (⟨hf, ·⟩) (⟨hf, ·⟩))
  · exact .inl ⟨hf, by simp only [execJeq, Flag.isEqual_iff, hf, if_false]; rfl⟩

theorem execJne_cases :
    (s.fl = .equal ∧ execJne a s = .next { s with pc := s.pc + 2 }) ∨
      (s.fl ≠ .equal ∧ ∃ h : a.toNat < 8, execJne a s = .next { s with pc := (s.reg ⟨a.toNat, h⟩).toNat }) ∨
      (s.fl ≠ .equal ∧ 8 ≤ a.toNat ∧ execJne a s = .next (s.takeFault (.invalidRegister a) (some 0x56))) := by
  by_cases hf : s.fl = .equal
  · have e : s.fl.isEqual = true := (Flag.isEqual_iff _).2 hf
    exact .inl ⟨hf, by simp only [execJne, e, if_true]; rfl⟩
  · have e : execJne a s = conclude (.jne a) s (jumpToReg a s) := by simp [execJne, Flag.isEqual_iff, hf]
    rw [e]
    exact .inr ((conclude_jumpToReg s a (.jne a)).imp (⟨hf, ·⟩) (⟨hf, ·⟩))

theorem execHalt_eq : execHalt s = .next { s with es := .halted } := rfl

/-- A commit of an instruction other than HALT: only registers, memory, flags, output and pc are written; the pc goes
forward by at most 3 or is a byte; memory changes at most at the address a push stores to. -/
def Committed (s t : State) : Prop :=
  ∃ x m p f o, t = { s with x := x, mem := m, pc := p, fl := f, out := o } ∧ (p ≤ 255 ∨ p ≤ s.pc + 3) ∧
    (m = s.mem ∨ (s.pushAddr < s.cfg.N ∧ ∃ v, m = s.mem.put s.pushAddr v))

/-- What any instruction can do, coarsely: take a fault, halt, or commit. -/
theorem exec_commits_or_faults (i : Instr) :
    ∃ t, exec i s = .next t ∧ ((∃ c, t = s.takeFault c (some i.opcode)) ∨ (i = .halt ∧ t = { s with es := .halted }) ∨
      (i ≠ .halt ∧ Committed s t)) := by
  have byte : ∀ v : Byte, v.toNat ≤ 255 := fun v => by have := v.isLt; omega
  cases i
  case ldi a b =>
    rcases execLdi_cases s a b with ⟨_, e⟩ | ⟨_, e⟩
    · exact ⟨_, e, .inr (.inr ⟨by simp, _, s.mem, _, s.fl, s.out, rfl, by simp, .inl rfl⟩)⟩
    · exact ⟨_, e, .inl ⟨_, rfl⟩⟩
  case prn a =>
    rcases execPrn_cases s a with ⟨_, e⟩ | ⟨_, e⟩
    · exact ⟨_, e, .inr (.inr ⟨by simp, s.x, s.mem, _, s.fl, _, rfl, by simp, .inl rfl⟩)⟩
    · exact ⟨_, e, .inl ⟨_, rfl⟩⟩
  case mul a b =>
    rcases execMul_cases s a b with ⟨_, _, e⟩ | ⟨_, e⟩ | ⟨_, _, e⟩
    · exact ⟨_, e, .inr (.inr ⟨by simp, _, s.mem, _, s.fl, s.out, rfl, by simp, .inl rfl⟩)⟩
    all_goals exact ⟨_, e, .inl ⟨_, rfl⟩⟩
  case add a b =>
    rcases execAdd_cases s a b with ⟨_, _, e⟩ | ⟨_, e⟩ | ⟨_, _, e⟩
    · exact ⟨_, e, .inr (.inr ⟨by simp, _, s.mem, _, s.fl, s.out, rfl, by simp, .inl rfl⟩)⟩
    all_goals exact ⟨_, e, .inl ⟨_, rfl⟩⟩
  case push a =>
    rcases execPush_cases s a with ⟨_, _, hN, e⟩ | ⟨_, e⟩ | ⟨_, _, e⟩ | ⟨_, _, _, e⟩
    · exact ⟨_, e, .inr (.inr ⟨by simp, _, _, _, s.fl, s.out, rfl, by simp, .inr ⟨hN, _, rfl⟩⟩)⟩
    all_goals exact ⟨_, e, .inl ⟨_, rfl⟩⟩
  case pop a =>
    rcases execPop_cases s a with ⟨_, _, _, e⟩ | ⟨_, e⟩ | ⟨_, _, e⟩ | ⟨_, _, _, e⟩
    · exact ⟨_, e, .inr (.inr ⟨by simp, _, s.mem, _, s.fl, s.out, rfl, by simp, .inl rfl⟩)⟩
    all_goals exact ⟨_, e, .inl ⟨_, rfl⟩⟩
  case call a =>
    rcases execCall_cases s a with ⟨_, _, hN, e⟩ | ⟨_, e⟩ | ⟨_, _, e⟩ | ⟨_, _, _, e⟩
    · exact ⟨_, e, .inr (.inr ⟨by simp, _, _, _, s.fl, s.out, rfl, .inl (byte _), .inr ⟨hN, _, rfl⟩⟩)⟩
    all_goals exact ⟨_, e, .inl ⟨_, rfl⟩⟩
  case ret =>
    rcases execRet_cases s with ⟨_, _, e⟩ | ⟨_, e⟩ | ⟨_, _, e⟩
    · exact ⟨_, e, .inr (.inr ⟨by simp, _, s.mem, _, s.fl, s.out, rfl, .inl (byte _), .inl rfl⟩)⟩
    all_goals exact ⟨_, e, .inl ⟨_, rfl⟩⟩
  case cmp a b =>
    rcases execCmp_cases s a b with ⟨_, _, e⟩ | ⟨_, e⟩ | ⟨_, _, e⟩
    · exact ⟨_, e, .inr (.inr ⟨by simp, s.x, s.mem, _, _, s.out, rfl, by simp, .inl rfl⟩)⟩
    all_goals exact ⟨_, e, .inl ⟨_, rfl⟩⟩
  case jmp a =>
    rcases execJmp_cases s a with ⟨_, e⟩ | ⟨_, e⟩
    · exact ⟨_, e, .inr (.inr ⟨by simp, s.x, s.mem, _, s.fl, s.out, rfl, .inl (byte _), .inl rfl⟩)⟩
    · exact ⟨_, e, .inl ⟨_, rfl⟩⟩
  case jeq a =>
    rcases execJeq_cases s a with ⟨_, e⟩ | ⟨_, _, e⟩ | ⟨_, _, e⟩
    · exact ⟨_, e, .inr (.inr ⟨by simp, s.x, s.mem, _, s.fl, s.out, rfl, by simp, .inl rfl⟩)⟩
    · exact ⟨_, e, .inr (.inr ⟨by simp, s.x, s.mem, _, s.fl, s.out, rfl, .inl (byte _), .inl rfl⟩)⟩
    · exact ⟨_, e, .inl ⟨_, rfl⟩⟩
  case jne a =>
    rcases execJne_cases s a with ⟨_, e⟩ | ⟨_, _, e⟩ | ⟨_, _, e⟩
    · exact ⟨_, e, .inr (.inr ⟨by simp, s.x, s.mem, _, s.fl, s.out, rfl, by simp, .inl rfl⟩)⟩
    · exact ⟨_, e, .inr (.inr ⟨by simp, s.x, s.mem, _, s.fl, s.out, rfl, .inl (byte _), .inl rfl⟩)⟩
    · exact ⟨_, e, .inl ⟨_, rfl⟩⟩
  case halt => exact ⟨_, rfl, .inr (.inl ⟨rfl, rfl⟩)⟩

/-- What one iteration of the loop can do (spec/40_engine_cycle.md R221). -/
theorem iterate_cases :
    (s.stopDue = true ∧ iterate s = .next (s.takeFault (.stopped s.started) none)) ∨
      (s.stopDue = false ∧ s.cfg.N ≤ s.pc + 2 ∧ ∃ e, fetch s = .error e ∧
        iterate s = .next (s.takeFault e.cause e.opcode)) ∨
      (s.stopDue = false ∧ s.pc + 2 < s.cfg.N ∧ lookup (s.mem.read s.pc) = none ∧
        iterate s = .next (s.takeFault (.invalidOpcode (s.mem.read s.pc)) (some (s.mem.read s.pc)))) ∨
      (s.stopDue = false ∧ s.pc + 2 < s.cfg.N ∧
        ∃ i, decode (s.mem.read s.pc) (s.mem.read (s.pc + 1)) (s.mem.read (s.pc + 2)) = .ok i ∧
          iterate s = counted (exec i s)) := by
  unfold iterate
  cases hs : s.stopDue with
  | true => exact .inl ⟨rfl, by simp⟩
  | false =>
    by_cases hN : s.pc + 2 < s.cfg.N
    · simp only [fetch_of_fits hN]
      cases hd : decode (s.mem.read s.pc) (s.mem.read (s.pc + 1)) (s.mem.read (s.pc + 2)) with
      | error e =>
        obtain ⟨hl, rfl⟩ := decode_error hd
        exact .inr (.inr (.inl ⟨trivial, hN, hl, by simp⟩))
      | ok i => exact .inr (.inr (.inr ⟨trivial, hN, i, rfl, by simp⟩))
    · cases hf : fetch s with
      | error e => exact .inr (.inl ⟨rfl, by omega, e, rfl, by simp⟩)
      | ok f => exact absurd (fetch_ok hf).1 hN

end Sys2Proof.Machine
end

