-- ==== Sys2Proof/Laws/PerInstr.lean ====
section
/-!
SUPPORT. Facts of every instruction as syntax, one lemma per constructor (LAWS.json names the families).
-/

/-- The shape of an encoding: its first byte is the opcode, it has 1 to 3 bytes (spec/30_encoding.md R190, R192), and the
regularities of the opcode byte that R198 derives hold: bits 7:6 are the length less 1, bit 5 is set exactly for MUL, ADD
and CMP, bit 4 exactly for CALL, RET, JMP, JEQ and JNE. -/
def Sys2Proof.Laws.EncodingShape.Statement (i : Sys2Proof.Instr) : Prop :=
  (Sys2Proof.encode i).head? = some i.opcode ∧ (Sys2Proof.encode i).length = i.length ∧ 1 ≤ i.length ∧ i.length ≤ 3 ∧
    i.opcode.toNat / 64 = i.length - 1 ∧
    i.opcode.getLsbD 5 = decide (i.mnemonic ∈ ["MUL", "ADD", "CMP"]) ∧
    i.opcode.getLsbD 4 = decide (i.mnemonic ∈ ["CALL", "RET", "JMP", "JEQ", "JNE"])

/-- Every instruction has that shape; the lemmas per constructor below are its cases. -/
theorem Sys2Proof.Laws.encodingShape_holds (i : Sys2Proof.Instr) : Sys2Proof.Laws.EncodingShape.Statement i := by
  cases i <;> simp [Sys2Proof.Laws.EncodingShape.Statement, Sys2Proof.encode, Sys2Proof.Instr.opcode,
    Sys2Proof.Instr.length, Sys2Proof.Instr.mnemonic]

namespace Sys2Proof.Laws.EncodingShape

theorem ldi (a b : Byte) : Statement (.ldi a b) := Sys2Proof.Laws.encodingShape_holds _
theorem prn (a : Byte) : Statement (.prn a) := Sys2Proof.Laws.encodingShape_holds _
theorem mul (a b : Byte) : Statement (.mul a b) := Sys2Proof.Laws.encodingShape_holds _
theorem add (a b : Byte) : Statement (.add a b) := Sys2Proof.Laws.encodingShape_holds _
theorem push (a : Byte) : Statement (.push a) := Sys2Proof.Laws.encodingShape_holds _
theorem pop (a : Byte) : Statement (.pop a) := Sys2Proof.Laws.encodingShape_holds _
theorem call (a : Byte) : Statement (.call a) := Sys2Proof.Laws.encodingShape_holds _
theorem ret : Statement .ret := Sys2Proof.Laws.encodingShape_holds _
theorem cmp (a b : Byte) : Statement (.cmp a b) := Sys2Proof.Laws.encodingShape_holds _
theorem jmp (a : Byte) : Statement (.jmp a) := Sys2Proof.Laws.encodingShape_holds _
theorem jeq (a : Byte) : Statement (.jeq a) := Sys2Proof.Laws.encodingShape_holds _
theorem jne (a : Byte) : Statement (.jne a) := Sys2Proof.Laws.encodingShape_holds _
theorem halt : Statement .halt := Sys2Proof.Laws.encodingShape_holds _

end Sys2Proof.Laws.EncodingShape
end

