-- ==== Sys2Proof/Tests/Slice0.lean ====
section
/-!
SUPPORT. The model's own tests, and a witness for the hypotheses of each statement.

Expected results come from spec/95_test_vectors.md (V<n>, P<n>, S<n>), from the encoding table of
spec/30_encoding.md R196, or by hand from the rule named.
-/

namespace Sys2Proof.Tests

open Sys2Proof Sys2Proof.Machine

/-! ### Helpers -/

/-- The next state of an outcome, if there is one. -/
def after : Host.Outcome State Fault Refusal → Option State
  | .next t => some t
  | .fault _ => none
  | .refused _ => none

/-- The engine after reset, `load` of the bytes at 0 and the start of `run` (R359). -/
def bench (bytes : List Byte) : State := (State.reset.load bytes 0).1.startRun

/-- A running engine with the given pc, registers and memory. -/
def engine (pc : Nat) (x : Vector Byte 8) (mem : Memory) : State := { bench [] with pc, x, mem }

/-- The same in a configuration with `N` = memTop + 1. -/
def small (memTop : Byte) (s : State) : State := { s with cfg := { s.cfg with memTop } }

/-- The same with a step budget. -/
def budgeted (k : Nat) (s : State) : State := { s with cfg := { s.cfg with stepBudget := some k } }

/-- The same with the stop signal present. -/
def stoppable (s : State) : State := { s with cfg := { s.cfg with stopInput := true } }

/-- The fault of an outcome, if it is one: `Kind(info)`, pc and opcode of the record. -/
def raised (o : Host.Outcome State Fault Refusal) : Option FaultRecord := (after o).bind (·.fr)

/-! ### Well-formedness: an ill-formed term for each check -/

theorem smoke_ldi_refused : WellFormed (.ldi 8 0) = false := by decide
theorem smoke_ldi_data_unchecked : WellFormed (.ldi 7 255) = true := by decide
theorem smoke_prn_refused : WellFormed (.prn 8) = false := by decide
theorem smoke_mul_refused : WellFormed (.mul 8 0) = false ∧ WellFormed (.mul 0 8) = false := by decide
theorem smoke_add_refused : WellFormed (.add 255 0) = false ∧ WellFormed (.add 0 255) = false := by decide
theorem smoke_push_refused : WellFormed (.push 8) = false := by decide
theorem smoke_pop_refused : WellFormed (.pop 9) = false := by decide
theorem smoke_call_refused : WellFormed (.call 16) = false := by decide
theorem smoke_cmp_refused : WellFormed (.cmp 8 7) = false ∧ WellFormed (.cmp 7 8) = false := by decide
theorem smoke_jmp_refused : WellFormed (.jmp 8) = false := by decide
theorem smoke_jeq_refused : WellFormed (.jeq 9) = false := by decide
theorem smoke_jne_refused : WellFormed (.jne 9) = false := by decide

/-! ### Decoding: one word of each row, written out from R196 (P1 to P4 where they use it) -/

theorem test_decode_ldi : decode 0b10000010 0x00 0x08 = .ok (.ldi 0 8) := by decide
theorem test_decode_prn : decode 0b01000111 0x00 0x01 = .ok (.prn 0) := by decide
theorem test_decode_mul : decode 0b10100010 0x00 0x01 = .ok (.mul 0 1) := by decide
theorem test_decode_add : decode 0b10100000 0x0A 0x09 = .ok (.add 10 9) := by decide
theorem test_decode_push : decode 0b01000101 0x02 0x46 = .ok (.push 2) := by decide
theorem test_decode_pop : decode 0b01000110 0x03 0x46 = .ok (.pop 3) := by decide
theorem test_decode_call : decode 0b01010000 0x01 0x47 = .ok (.call 1) := by decide
theorem test_decode_ret : decode 0b00010001 0xFF 0xFF = .ok .ret := by decide
theorem test_decode_cmp : decode 0b10100111 0x00 0x02 = .ok (.cmp 0 2) := by decide
theorem test_decode_jmp : decode 0b01010100 0x03 0x00 = .ok (.jmp 3) := by decide
theorem test_decode_jeq : decode 0b01010101 0x02 0x00 = .ok (.jeq 2) := by decide
theorem test_decode_jne : decode 0b01010110 0x03 0x01 = .ok (.jne 3) := by decide
theorem test_decode_halt : decode 0b00000001 0x00 0x00 = .ok .halt := by decide

/-- V83: the neighbours of real opcodes are invalid. -/
theorem test_decode_neighbours : ∀ op ∈ ([0x83, 0x02, 0xA1, 0x57, 0x10, 0x00] : List Byte),
    decode op 0 0 = .error (.invalidOpcode op) := by decide

theorem test_table_word : decodeTableWord 24 0x0900A0 = some (.add 0 9) ∧ decodeTableWord 8 0xFF82 = some (.ldi 0 0) ∧
    decodeTableWord 8 0x00 = none := by decide

/-! ### Instructions, one step each -/

/-- V2, with the fetch: `82 06 FF` at 0. -/
theorem test_ldi : (after (step (bench [0x82, 0x06, 0xFF]))).map (fun t => (t.x[6], t.pc)) = some (255, 3) := by decide
/-- V5. -/
theorem test_ldi_bad_register : raised (step (bench [0x82, 0xFF, 0x01])) = some ⟨.invalidRegister 255, 0, some 0x82⟩ := by
  decide
/-- V8: PRN R7 emits SP. -/
theorem test_prn_sp : (after (step (bench [0x47, 0x07]))).map (fun t => (t.out, t.pc)) = some ([244], 2) := by decide
/-- V9. -/
theorem test_prn_bad_register : (after (step (bench [0x47, 0x08]))).map (fun t => (t.out, t.es)) = some ([], .faulted) := by
  decide
/-- V24. -/
theorem test_mul_wraps : (after (exec (.mul 0 1) (engine 6 #v[200, 3, 0, 0, 0, 0, 0, 0xF4] []))).map
    (fun t => (t.x[0], t.x[1], t.pc)) = some (88, 3, 9) := by decide
/-- V28: `a` is tested first. -/
theorem test_mul_bad_registers : raised (exec (.mul 9 8) (bench [])) = some ⟨.invalidRegister 9, 0, some 0xA2⟩ := by decide
/-- V10, S5. -/
theorem test_add_wraps : (after (exec (.add 0 1) (engine 0 #v[250, 10, 0, 0, 0, 0, 0, 0xF4] []))).map
    (fun t => (t.x[0], t.x[1], t.fl)) = some (4, 10, .unset) := by decide
/-- V14: source and destination are one register. -/
theorem test_add_doubles : (after (exec (.add 3 3) (engine 0 #v[0, 0, 0, 200, 0, 0, 0, 0xF4] []))).map
    (fun t => t.x[3]) = some 144 := by decide
/-- V29, V30. -/
theorem test_alu : aluApply .add 250 10 = .ok 4 ∧ aluApply (.other 2) 1 1 = .error (.unsupportedOperation (.other 2)) := by
  decide
/-- V34: PUSH R7 stores the decremented SP. -/
theorem test_push_sp : (after (exec (.push 7) (bench []))).map (fun t => (t.x[7], t.mem)) = some (0xF3, [(0xF3, 0xF3)]) := by
  decide
/-- V43: N = 128. -/
theorem test_push_outside_memory : (after (exec (.push 0) (small 127 (bench [])))).map (fun t => (t.x[7], t.fr)) =
    some (0xF4, some ⟨.addressOutOfRange 0xF3, 0, some 0x45⟩) := by decide
/-- V37: the cell is not cleared. -/
theorem test_pop : (after (exec (.pop 3) (engine 15 #v[0, 0, 0, 0, 0, 0, 0, 0xF1] [(0xF1, 3)]))).map
    (fun t => (t.x[3], t.x[7], t.mem, t.pc)) = some (3, 0xF2, [(0xF1, 3)], 0x11) := by decide
/-- V40: POP R7 leaves the popped byte plus 1. -/
theorem test_pop_sp : (after (exec (.pop 7) (engine 0 #v[0, 0, 0, 0, 0, 0, 0, 0xF3] [(0xF3, 0x20)]))).map
    (fun t => t.x[7]) = some 0x21 := by decide
/-- V44. -/
theorem test_call : (after (exec (.call 1) (engine 6 #v[0, 0x0B, 0, 0, 0, 0, 0, 0xF4] []))).map
    (fun t => (t.x[7], t.mem, t.pc)) = some (0xF3, [(0xF3, 8)], 0x0B) := by decide
/-- V48: CALL R7 jumps to the decremented SP. -/
theorem test_call_sp : (after (exec (.call 7) (bench []))).map (fun t => (t.mem, t.pc)) = some ([(0xF3, 2)], 0xF3) := by
  decide
/-- V49. -/
theorem test_ret : (after (exec .ret (engine 14 #v[0, 0, 0, 0, 0, 0, 0, 0xF3] [(0xF3, 8)]))).map
    (fun t => (t.x[7], t.pc)) = some (0xF4, 8) := by decide
/-- V50. -/
theorem test_ret_empty : raised (step (bench [0x11])) = some ⟨.stackUnderflow 0xF4, 0, some 0x11⟩ := by decide
/-- V55: the order is unsigned. -/
theorem test_cmp_unsigned : (after (exec (.cmp 0 1) (engine 0 #v[128, 127, 0, 0, 0, 0, 0, 0xF4] []))).map
    (fun t => (t.fl, t.pc)) = some (.greater, 3) := by decide
/-- V59. -/
theorem test_cmp_bad_register : (after (exec (.cmp 0 8) { bench [] with fl := .greater })).map (fun t => (t.fl, t.es)) =
    some (.greater, .faulted) := by decide
/-- V61. -/
theorem test_jmp : (after (exec (.jmp 3) (engine 0x20 #v[0, 0, 0, 0x0C, 0, 0, 0, 0xF4] []))).map (fun t => t.pc) =
    some 0x0C := by decide
/-- V64. -/
theorem test_jeq_taken : (after (exec (.jeq 2) { engine 0x10 #v[0, 0, 0x30, 0, 0, 0, 0, 0xF4] [] with fl := .equal })).map
    (fun t => (t.pc, t.fl)) = some (0x30, .equal) := by decide
/-- V72: the operand of an untaken JEQ is not checked. -/
theorem test_jeq_untaken : (after (exec (.jeq 9) (bench []))).map (fun t => (t.pc, t.es)) = some (2, .running) := by decide
/-- V71: JNE is taken on Unset. -/
theorem test_jne_unset : (after (exec (.jne 3) (engine 0 #v[0, 0, 0, 0x0C, 0, 0, 0, 0xF4] []))).map (fun t => t.pc) =
    some 0x0C := by decide
/-- V74. -/
theorem test_jne_bad_register : raised (exec (.jne 9) (bench [])) = some ⟨.invalidRegister 9, 0, some 0x56⟩ := by decide
/-- V77: the last address at which anything executes. -/
theorem test_halt_last : (after (step (engine 0xFD (bench []).x [(0xFD, 0x01)]))).map (fun t => (t.es, t.pc, t.fr)) =
    some (.halted, 0xFD, none) := by decide
/-- V78: not Halted. -/
theorem test_halt_too_late : raised (step (engine 0xFE (bench []).x [(0xFE, 0x01)])) =
    some ⟨.addressOutOfRange 0x100, 0xFE, some 0x01⟩ := by decide

/-! ### The step, faults and the host -/

/-- V80. -/
theorem test_fetch_outside : raised (step (engine 0x100 (bench []).x [])) = some ⟨.addressOutOfRange 0x100, 0x100, none⟩ := by
  decide
/-- P6: empty memory. -/
theorem test_empty_memory : (after (step (bench []))).map (fun t => (t.fr, t.x[7])) =
    some (some ⟨.invalidOpcode 0, 0, some 0⟩, 0xF4) := by decide
/-- The last step of P11 with STEP_BUDGET = 5. -/
theorem test_budget : raised (step { budgeted 5 (bench [0x82, 0, 3, 0x54, 0]) with pc := 3, steps := 5 }) =
    some ⟨.stopped 5, 3, none⟩ := by decide
/-- R230: an iteration with a budget counts. -/
theorem test_budget_counts : (after (step (budgeted 1 (bench [0x82, 0, 3])))).map (fun t => (t.steps, t.es)) =
    some (1, .running) := by decide
/-- R142, R310, log 9: with the stop signal and no budget, `steps` stays 0, and Stopped reports the steps started. -/
theorem test_stop_counts :
    (after (step (stoppable (bench [0x82, 0, 3])))).map (fun t => (t.steps, raised (step { t with stop := true }))) =
      some (0, some ⟨.stopped 1, 3, none⟩) := by decide
/-- The codes of R310. -/
theorem test_codes : [FaultKind.addressOutOfRange, .invalidRegister, .unsupportedOperation, .invalidOpcode, .stackOverflow,
    .stackUnderflow, .stopped].map FaultKind.code = [1, 2, 3, 4, 5, 6, 7] := by decide
/-- R133: at most one of the bits L, G, E is set. -/
theorem test_flag_bits : [Flag.unset, .less, .greater, .equal].map Flag.bits = [0, 4, 2, 1] := by decide
/-- R365. -/
theorem test_decimal_line : decimalLine 72 = "72\n" ∧ decimalLine 0 = "0\n" ∧ decimalLine 255 = "255\n" := by decide
/-- R352: whole or nothing. -/
theorem test_load_too_long : State.reset.load [1, 2] 255 = (State.reset, .loadOutOfRange) := by decide
/-- R107, D1: a memory size outside 1 to 256 is refused. -/
theorem test_memory_sizes : Config.ofMemorySize 0 0 none false = none ∧ Config.ofMemorySize 257 0 none false = none ∧
    Config.ofMemorySize 256 0xF4 none false = some Config.reference := by decide
/-- The host's question: a word placed on the reset state runs as the first instruction. -/
theorem test_first_word : (after (step (State.reset.withFetchWord 24 0x080082))).map (fun t => (t.x[0], t.x[7], t.pc)) =
    some (8, 0xF4, 3) := by decide

/-! ### Witnesses: the hypotheses of each statement are met together, each clause at a boundary -/

theorem witness_OpcodeByteAloneSelects :
    decode 0x82 1 2 = .ok (.ldi 1 2) ∧ decode 0x47 3 4 = .ok (.prn 3) := by decide
theorem witness_DecodeInvertsEncode :
    encode (.push 7) ++ [0x11, 0x00] = 0x45 :: 7 :: 0x11 :: [0x00] ∧ encode .halt ++ [0, 1] = 0x01 :: 0 :: 1 :: [] ∧
      encode (.cmp 7 255) ++ [] = 0xA7 :: 7 :: 255 :: [] := by decide
theorem witness_EncodeInvertsDecode : decode 0xA7 255 0 = .ok (.cmp 255 0) := by decide
theorem witness_BytesBeyondLengthIgnored :
    (decode 0x56 8 255 = .ok (.jne 8) ∧ (Instr.jne 8).length = 2) ∧
      (decode 0x11 8 255 = .ok .ret ∧ Instr.ret.length = 1) := by decide
theorem witness_WholeByteSelectsRegister : (7 : Byte).toNat < 8 ∧ 8 ≤ (8 : Byte).toNat := by decide
theorem witness_RegisterWriteTruncates : (0 : Fin 8) ≠ 7 := by decide
theorem witness_ReadIsRangeChecked : State.reset.cfg.N ≤ 256 ∧ 255 < State.reset.cfg.N := by decide
theorem witness_WriteIsRangeChecked :
    (bench [1, 2]).mem.wf ∧ (bench [1, 2]).cfg.N ≤ 256 ∧ 255 < (bench [1, 2]).cfg.N ∧ (0 : Nat) ≠ 255 := by decide
theorem witness_AluAddsAndRejectsTheRest : AluOp.other 0 ≠ .add := by decide
theorem witness_LdiLoadsImmediate : (7 : Byte).toNat < 8 ∧ 8 ≤ (8 : Byte).toNat := by decide
theorem witness_PrnEmitsRegister : (7 : Byte).toNat < 8 ∧ 8 ≤ (255 : Byte).toNat := by decide
theorem witness_MulWritesLowByteOfProduct : (7 : Byte).toNat < 8 ∧ (0 : Byte).toNat < 8 := by decide
theorem witness_AddWritesSumModulo256 : (0 : Byte).toNat < 8 ∧ (7 : Byte).toNat < 8 := by decide
theorem witness_PushStoresAtDecrementedSp :
    let s := engine 0 #v[9, 0, 0, 0, 0, 0, 0, 1] []
    (7 : Byte).toNat < 8 ∧ s.x[7] ≠ 0 ∧ s.x[7].toNat - 1 < s.cfg.N := by decide
theorem witness_PopLoadsFromSp :
    let s := engine 0 #v[0, 0, 0, 0, 0, 0, 0, 0xF3] []
    (7 : Byte).toNat < 8 ∧ s.x[7] < s.cfg.tos ∧ s.x[7].toNat < s.cfg.N := by decide
theorem witness_CallPushesReturnAddress :
    let s := engine 253 #v[0, 0, 0, 0, 0, 0, 0, 255] []
    (0 : Byte).toNat < 8 ∧ s.x[7] ≠ 0 ∧ s.x[7].toNat - 1 < s.cfg.N ∧ s.pc + 2 < s.cfg.N := by decide
theorem witness_RetPopsItsTarget :
    let s := engine 0 #v[0, 0, 0, 0, 0, 0, 0, 0] []
    s.x[7] < s.cfg.tos ∧ s.x[7].toNat < s.cfg.N := by decide
theorem witness_CmpSetsFlags : (7 : Byte).toNat < 8 ∧ (7 : Byte).toNat < 8 := by decide
theorem witness_JmpGoesToRegister : (7 : Byte).toNat < 8 ∧ 8 ≤ (8 : Byte).toNat := by decide
theorem witness_JeqJumpsOnEqual :
    ({ bench [] with fl := .equal } : State).fl = .equal ∧ (7 : Byte).toNat < 8 ∧ 8 ≤ (8 : Byte).toNat ∧
      (bench []).fl ≠ .equal := by decide
theorem witness_JneJumpsOnNotEqual :
    (bench []).fl ≠ .equal ∧ (7 : Byte).toNat < 8 ∧ 8 ≤ (8 : Byte).toNat ∧
      ({ bench [] with fl := .equal } : State).fl = .equal := by decide
theorem witness_HaltEndsTheRun_fetch :
    let s := engine 254 (bench []).x [(254, 1)]
    s.es = .running ∧ s.cfg.N ≤ s.pc + 2 ∧ ∃ t, step s = .next t := ⟨rfl, by decide, _, rfl⟩
theorem witness_HaltEndsTheRun_only :
    ∃ t, exec .halt (bench []) = .next t ∧ (bench []).es ≠ .halted ∧ t.es = .halted := ⟨_, rfl, by decide, rfl⟩
theorem witness_HaltEndsTheRun_resume : ({ bench [] with es := .halted } : State).es = .halted := rfl
theorem witness_RegisterOperandsTestedFirst :
    8 ≤ (8 : Byte).toNat ∧ Instr.push 8 ∈ [Instr.ldi 8 9, .prn 8, .mul 8 9, .add 8 9, .push 8] ∧
      (7 : Byte).toNat < 8 ∧ Instr.cmp 7 8 ∈ [Instr.mul 7 8, .add 7 8, .cmp 7 8] := by decide
theorem witness_StackChecksFault_overflow : (engine 0 #v[0, 0, 0, 0, 0, 0, 0, 0] []).x[7] = 0 := by decide
theorem witness_StackChecksFault_pushRange :
    let s := small 127 (engine 0 #v[0, 0, 0, 0, 0, 0, 0, 129] [])
    s.x[7] ≠ 0 ∧ s.cfg.N ≤ s.x[7].toNat - 1 := by decide
theorem witness_StackChecksFault_underflow : (bench []).cfg.tos ≤ (bench []).x[7] := by decide
theorem witness_StackChecksFault_popRange :
    let s := small 127 (engine 0 #v[0, 0, 0, 0, 0, 0, 0, 128] [])
    s.x[7] < s.cfg.tos ∧ s.cfg.N ≤ s.x[7].toNat := by decide
theorem witness_OnlyListedFaultsRaised :
    ∃ t r, exec .ret (bench []) = .next t ∧ (bench []).fr = none ∧ t.fr = some r ∧ (bench []).cfg.N = 256 :=
  ⟨_, _, rfl, rfl, rfl, by decide⟩
theorem witness_WellFormedNeverInvalidRegister :
    ∃ t r, WellFormed (.pop 7) = true ∧ exec (.pop 7) (bench []) = .next t ∧ (bench []).fr = none ∧ t.fr = some r :=
  ⟨_, _, rfl, rfl, rfl, rfl⟩
theorem witness_StepRunsDecodedInstruction :
    let s := engine 253 (bench []).x [(253, 0x11)]
    s.es = .running ∧ s.stopDue = false ∧ s.pc + 2 < s.cfg.N ∧
      decode (s.mem.read s.pc) (s.mem.read (s.pc + 1)) (s.mem.read (s.pc + 2)) = .ok .ret ∧
      s.cfg.stepBudget = none ∧ s.cfg.stopInput = false := by decide
theorem witness_FetchPastMemoryFaults : ∀ pc ∈ [254, 255, 256],
    (engine pc (bench []).x []).es = .running ∧ (engine pc (bench []).x []).stopDue = false ∧
      (engine pc (bench []).x []).cfg.N ≤ (engine pc (bench []).x []).pc + 2 := by decide
theorem witness_InvalidOpcodeFaults : ∀ pc ∈ [253, 254],
    (engine pc (bench []).x []).es = .running ∧ (engine pc (bench []).x []).stopDue = false ∧
      (engine pc (bench []).x []).mem.read (engine pc (bench []).x []).pc ∉
        ([0x82, 0x47, 0xA2, 0xA0, 0x45, 0x46, 0x50, 0x11, 0xA7, 0x54, 0x55, 0x56, 0x01] : List Byte) := by decide
theorem witness_StopCheckComesFirst :
    ((stoppable { bench [] with stop := true }).es = .running ∧
      (stoppable { bench [] with stop := true }).cfg.stopInput = true ∧ (stoppable { bench [] with stop := true }).stop = true) ∧
    ((budgeted 0 (bench [])).es = .running ∧ (budgeted 0 (bench [])).cfg.stepBudget = some (budgeted 0 (bench [])).steps) := by
  decide
theorem witness_FaultingStepIsPrecise :
    ∃ t, (bench []).es = .running ∧ step (bench []) = .next t ∧ t.es = .faulted := ⟨_, rfl, rfl, rfl⟩
theorem witness_NothingMovesOutsideRunning : State.reset.es ≠ .running := by decide
theorem witness_EngineStateTransitions :
    (∃ t, step State.reset = .next t ∧ State.reset.es ≠ .running) ∧
      ∃ t, step (bench [1]) = .next t ∧ (bench [1]).es = .running ∧ t.es = .halted :=
  ⟨⟨_, rfl, by decide⟩, _, rfl, rfl, rfl⟩
theorem witness_BudgetEndsEveryRun :
    let s := budgeted 5 (bench [0x82, 0, 3, 0x54, 0])
    s.cfg.stepBudget = some 5 ∧ s.steps ≤ 5 ∧ s.es ≠ .idle := by decide
theorem witness_SelfJumpNeverEnds :
    let s := engine 253 #v[253, 0, 0, 0, 0, 0, 0, 0xF4] [(253, 0x54)]
    (0 : Byte).toNat < 8 ∧ s.Unbounded ∧ s.pc + 2 < s.cfg.N ∧ s.CodeAt [0x54, 0] ∧ s.x[(0 : Byte).toNat].toNat = s.pc := by
  decide
/-- A running state that meets the invariant. -/
theorem bench_inv : (bench [0x45, 7]).Inv where
  canonical := by decide
  inRange := by decide
  pcRange := by decide
  recorded := by decide
  recordPc := by intro r h; cases h
  budget := by intro k h; cases h
  uncounted := by decide
  untallied := by decide
  stopExists := by decide
  idleFresh := by intro h; cases h
theorem witness_StepKeepsInvariant : ∃ t, (bench [0x45, 7]).Inv ∧ step (bench [0x45, 7]) = .next t := ⟨_, bench_inv, rfl⟩
theorem witness_HostActionsKeepInvariant : (bench [0x45, 7]).Inv := bench_inv
theorem witness_RegisterFrame :
    ∃ t, exec (.pop 3) (engine 0 #v[0, 0, 0, 0, 0, 0, 0, 0xF1] [(0xF1, 3)]) = .next t ∧
      ∀ k ∈ ([3, 7] : List Byte), k.toNat ≠ (6 : Fin 8).val := ⟨_, rfl, by decide⟩
theorem witness_FlagFrame :
    (∃ t, exec (.add 0 1) (bench []) = .next t ∧ ∀ a b, Instr.add 0 1 ≠ .cmp a b) ∧
      ∃ t, exec (.cmp 8 0) (bench []) = .next t ∧ (bench []).es ≠ .faulted ∧ t.es = .faulted :=
  ⟨⟨_, rfl, by simp⟩, _, rfl, by decide, rfl⟩
theorem witness_MemoryFrame :
    (bench []).mem.wf ∧ (∃ t, exec (.push 7) (bench []) = .next t ∧ (0 : Nat) ≠ (bench []).pushAddr) ∧
      ∃ t, exec (.push 8) (bench []) = .next t ∧ (bench []).es ≠ .faulted ∧ t.es = .faulted :=
  ⟨by decide, ⟨_, rfl, by decide⟩, _, rfl, by decide, rfl⟩
theorem witness_OutputFrame : ∃ t, exec (.prn 7) (bench []) = .next t := ⟨_, rfl⟩
theorem witness_ControlStateFrame : ∃ t, exec .halt (bench []) = .next t := ⟨_, rfl⟩
theorem witness_NextPcOfEachInstruction : ∃ t, exec (.call 7) (bench []) = .next t ∧ t.es ≠ .faulted :=
  ⟨_, rfl, by decide⟩
theorem witness_FlagsReadOnlyByConditionalJumps :
    ∃ t, (∀ a, Instr.cmp 0 1 ≠ .jeq a) ∧ (∀ a, Instr.cmp 0 1 ≠ .jne a) ∧ exec (.cmp 0 1) (bench []) = .next t :=
  ⟨_, by simp, by simp, rfl⟩
theorem witness_LdiThenPrnReproducesValue :
    let s := engine 250 (bench []).x [(250, 0x82), (251, 7), (252, 200), (253, 0x47), (254, 7)]
    (7 : Byte).toNat < 8 ∧ s.Unbounded ∧ s.pc + 5 < s.cfg.N ∧ s.CodeAt [0x82, 7, 200, 0x47, 7] := by decide
theorem witness_PushThenPopRestores :
    let s := engine 0 #v[0x5A, 0, 0, 0, 0, 0, 0, 0xF4] []
    (0 : Byte).toNat < 7 ∧ (6 : Byte).toNat < 7 ∧ s.mem.wf ∧ s.x[7] ≠ 0 ∧ s.x[7] ≤ s.cfg.tos ∧
      s.x[7].toNat - 1 < s.cfg.N ∧ (6 : Byte) ≠ 0 := by decide
/-- The state in the subroutine of P3 that RET is run in. -/
theorem witness_CallThenRetReturns :
    let s := engine 6 #v[10, 0x0B, 0, 0, 0, 0, 0, 0xF4] []
    ∃ t u, (1 : Byte).toNat < 8 ∧ s.mem.wf ∧ s.x[7] ≠ 0 ∧ s.x[7] ≤ s.cfg.tos ∧ s.x[7].toNat - 1 < s.cfg.N ∧
      s.pc + 2 < s.cfg.N ∧ exec (.call 1) s = .next t ∧ u = { t with pc := 0x0E } ∧ u.cfg = s.cfg ∧
      u.x[7] = t.x[7] ∧ u.mem.read u.x[7].toNat = t.mem.read t.x[7].toNat :=
  ⟨_, _, by decide, by decide, by decide, by decide, by decide, by decide, rfl, rfl, rfl, rfl, rfl⟩
/-- The PUSH of P10. -/
theorem witness_PushedCodeRunsNext :
    let s := engine 6 #v[1, 0, 0, 0, 0, 0, 0, 9] [(6, 0x45)]
    (0 : Byte).toNat < 8 ∧ s.Unbounded ∧ s.mem.wf ∧ s.CodeAt [0x45, 0] ∧ s.pc + 4 < s.cfg.N ∧
      s.x[7].toNat = s.pc + 3 ∧ 1 = (if (0 : Byte) = 7 then s.x[7] - 1 else s.x[(0 : Byte).toNat]) ∧
      decode 1 (s.mem.read (s.pc + 3)) (s.mem.read (s.pc + 4)) = .ok .halt := by decide
/-- A PUSH R7 at the top of memory, whose byte is no opcode. -/
theorem witness_PushedCodeRunsNext_invalid :
    let s := engine 251 #v[0, 0, 0, 0, 0, 0, 0, 254] [(251, 0x45), (252, 7)]
    (7 : Byte).toNat < 8 ∧ s.Unbounded ∧ s.mem.wf ∧ s.CodeAt [0x45, 7] ∧ s.pc + 4 < s.cfg.N ∧
      s.x[7].toNat = s.pc + 3 ∧ 253 = (if (7 : Byte) = 7 then s.x[7] - 1 else s.x[(7 : Byte).toNat]) ∧
      decode 253 (s.mem.read (s.pc + 3)) (s.mem.read (s.pc + 4)) = .error (.invalidOpcode 253) := by decide
theorem witness_ResetLeavesZeros : 255 < Config.reference.N := by decide
theorem witness_RunStartInitialises :
    State.reset.es = .idle ∧ 254 + ([1, 2] : List Byte).length ≤ Config.reference.N ∧
      0 < ([1, 2] : List Byte).length ∧ (253 < 254 ∨ 254 + ([1, 2] : List Byte).length ≤ 253) := by decide
theorem witness_LoadWritesWholeOrNothing :
    State.reset.mem.wf ∧ (bench []).mem.wf ∧ (bench []).es ≠ .idle ∧ State.reset.es = .idle ∧ ([1, 2] : List Byte) ≠ [] ∧ ([] : List Byte) = [] ∧
      State.reset.cfg.N < 255 + ([1, 2] : List Byte).length ∧ 254 + ([1, 2] : List Byte).length ≤ State.reset.cfg.N := by
  decide
theorem witness_DisallowedTransactionsChangeNothing :
    (bench []).es ≠ .idle ∧ (State.reset.es ≠ .running ∨ State.reset.cfg.stopInput = false) ∧
      (State.reset.es = .idle ∨ State.reset.es = .running) := by decide
theorem witness_AssertedStopEndsTheRun : (stoppable (bench [])).es = .running ∧ (stoppable (bench [])).cfg.stopInput = true := by
  decide
theorem witness_OutcomeIsHaltedOnlyByHalt : ∃ t, (bench [1]).es = .running ∧ step (bench [1]) = .next t := ⟨_, rfl, rfl⟩

end Sys2Proof.Tests
end

section
/-!
The state: how a register is selected and written (spec/10_state.md R122, R123), and the state the start of `run` leaves
(R146).
-/

namespace Sys2Proof.Machine

/-! ### The start of `run` and a load that fits -/

/-- The start of `run`, with its register write as a byte: TOS is a byte already, so nothing is truncated. -/
theorem State.startRun_eq (s : State) : s.startRun =
    { s with pc := 0, x := s.x.set 7 s.cfg.tos, fl := .unset, es := .running, steps := 0 } := by
  simp [State.startRun, State.setReg, spIndex]

/-- The start of `run` writes SP and no other register. -/
theorem State.reg_startRun (s : State) (i : Fin 8) :
    s.startRun.reg i = if spIndex = i then s.cfg.tos else s.reg i := by
  rw [← Byte.ofNat_toNat s.cfg.tos]
  exact s.reg_setReg spIndex i s.cfg.tos.toNat

theorem State.transact_run_of_idle {s : State} (h : s.es = .idle) : s.transact .run = (s.startRun, .done) := if_pos h

/-- A load that fits writes its bytes and nothing else; the empty one, which the model answers apart, writes none. -/
theorem State.load_of_fits {s : State} {bytes : List Byte} {start : Nat} (hidle : s.es = .idle)
    (hfit : start + bytes.length ≤ s.cfg.N) :
    s.load bytes start = ({ s with mem := s.mem.putAll start bytes }, .done) := by
  rw [State.load, if_neg (not_not.2 hidle)]
  by_cases hnil : bytes = []
  · rw [if_pos hnil, hnil, Memory.putAll]
  · rw [if_neg hnil, if_pos hfit]

/-- After a load that fits and `run`, the engine is the one `run` starts with the bytes in memory. -/
theorem State.transact_load_run_of_fits {s : State} {bytes : List Byte} {start : Nat} (hidle : s.es = .idle)
    (hfit : start + bytes.length ≤ s.cfg.N) :
    ((s.transact (.load bytes start)).1.transact .run).1 =
      State.startRun { s with mem := s.mem.putAll start bytes } := by
  have hload : s.transact (.load bytes start) = ({ s with mem := s.mem.putAll start bytes }, .done) :=
    State.load_of_fits hidle hfit
  have hstill : ({ s with mem := s.mem.putAll start bytes } : State).es = .idle := hidle
  rw [hload, State.transact_run_of_idle hstill]

/-! ### Memory after a load -/

theorem Memory.read_putAll_inside {m : Memory} (h : m.wf) (a : Nat) {vs : List Byte} {k : Nat} (hk : k < vs.length) :
    (m.putAll a vs).read (a + k) = vs.getD k 0 := by
  simp [Memory.read_putAll h, hk]

theorem Memory.read_putAll_outside {m : Memory} (h : m.wf) {a b : Nat} {vs : List Byte}
    (hb : b < a ∨ a + vs.length ≤ b) : (m.putAll a vs).read b = m.read b := by
  rw [Memory.read_putAll h, if_neg (by omega)]

/-! ### The obligations -/

/-- Settles O54: the start of `run` is `startRun`, and of the state it starts from after a load that fits, memory is known
by `read_putAll` and everything else by reset. -/
theorem runStartInitialises : Obligations.RunStartInitialises := by
  unfold Obligations.RunStartInitialises
  refine ⟨fun s hidle => ?_, fun c bytes start hfit =>
    ⟨_, State.transact_load_run_of_fits (State.construct_es c) hfit, ?_⟩⟩
  · rw [State.transact_run_of_idle hidle, State.startRun_eq]
  · refine ⟨fun k hk => Memory.read_putAll_inside Memory.wf_nil start hk,
      fun addr hout => Memory.read_putAll_outside Memory.wf_nil hout, fun r hr => ?_, State.reg_startRun _ spIndex,
      rfl, rfl, rfl, rfl, rfl⟩
    have hne : spIndex ≠ r := by rintro rfl; exact absurd hr (by decide)
    have hreset : (State.construct c).reg r = 0 := by simp [State.reg]
    exact (State.reg_startRun _ r).trans ((if_neg hne).trans hreset)

/-- Settles O6: the two outcomes of `regIdx`, by whether the byte is below 8. -/
theorem wholeByteSelectsRegister : Obligations.WholeByteSelectsRegister := by
  unfold Obligations.WholeByteSelectsRegister
  exact fun k => ⟨fun hlt => regIdx_of_lt hlt, fun hge => regIdx_of_ge hge⟩

/-- Settles O7: the written register reads as the value narrowed to a byte, which is the value modulo 256. -/
theorem registerWriteTruncates : Obligations.RegisterWriteTruncates := by
  unfold Obligations.RegisterWriteTruncates
  refine fun s i v => ⟨?_, fun j hne => s.reg_setReg_ne hne.symm v, rfl⟩
  rw [State.reg_setReg_self, Byte.ofNat, BitVec.toNat_ofNat]

end Sys2Proof.Machine
end

section
/-!
Memory access (spec/20_memory.md R160, R161): what a checked read returns after a byte was written.
-/

namespace Sys2Proof.Machine

theorem memRead_put_self {s : State} (h : s.mem.wf) {addr : Nat} (hin : addr < s.cfg.N) (v : Byte) :
    memRead { s with mem := s.mem.put addr v } addr = .ok v := by
  have hin' : addr < ({ s with mem := s.mem.put addr v } : State).cfg.N := hin
  rw [memRead_of_lt hin', Memory.read_put_self h]

/-- The range check does not look at memory, so a read of another address, faulting or not, is the read before the write. -/
theorem memRead_put_ne {s : State} (h : s.mem.wf) {addr b : Nat} (hb : b ≠ addr) (v : Byte) :
    memRead { s with mem := s.mem.put addr v } b = memRead s b := by
  rw [memRead, memRead, Memory.read_put_ne h hb]

/-- Settles O9: below N the write is `Memory.put`, whose reads are known by `memRead_put_self` and `memRead_put_ne`. -/
theorem writeIsRangeChecked : Obligations.WriteIsRangeChecked := by
  unfold Obligations.WriteIsRangeChecked
  refine fun s addr v hwf => ⟨fun hge => memWrite_of_ge hge, fun hlt => ?_⟩
  exact ⟨_, memWrite_of_lt hlt, memRead_put_self hwf hlt v, fun b hb => memRead_put_ne hwf hb v, rfl⟩

/-- Settles O8: the two outcomes of `memRead`, by its range check. -/
theorem readIsRangeChecked : Obligations.ReadIsRangeChecked := by
  unfold Obligations.ReadIsRangeChecked
  exact fun s addr => ⟨fun hge => memRead_of_ge hge, fun hlt => memRead_of_lt hlt⟩

end Sys2Proof.Machine
end

section
/-!
The decoder as a function of the opcode byte (spec/30_encoding.md R197, R199), and the fetch before it
(spec/40_engine_cycle.md R222, R223).
-/

namespace Sys2Proof

/-! ### The opcodes of the map -/

/-- The opcode column of R196. -/
theorem opcodeMap_opcodes : opcodeMap.map (·.opcode) =
    [0x82, 0x47, 0xA2, 0xA0, 0x45, 0x46, 0x50, 0x11, 0xA7, 0x54, 0x55, 0x56, 0x01] := rfl

theorem lookup_eq_none_iff_not_mem {op : Byte} : lookup op = none ↔ op ∉ opcodeMap.map (·.opcode) := by
  simp [lookup_none]

theorem decode_of_not_mem {op : Byte} (h : op ∉ opcodeMap.map (·.opcode)) (a b : Byte) :
    decode op a b = .error (.invalidOpcode op) := by
  simp [decode, lookup_eq_none_iff_not_mem.2 h]

theorem decode_of_mem {op : Byte} (h : op ∈ opcodeMap.map (·.opcode)) (a b : Byte) : ∃ i, decode op a b = .ok i := by
  cases hd : decode op a b with
  | ok i => exact ⟨i, rfl⟩
  | error e => exact absurd h (lookup_eq_none_iff_not_mem.1 (decode_error hd).1)

theorem opcode_of_decode {op a b : Byte} {i : Instr} (h : decode op a b = .ok i) : i.opcode = op := by
  obtain ⟨r, hr, rfl⟩ := decode_ok h
  obtain ⟨hmem, hop⟩ := lookup_some hr
  exact (opcodeMap_make r hmem a b).1.trans hop

/-! ### Opcode and mnemonic -/

/-- The operand bytes take no part in which of the thirteen an instruction is. -/
theorem opcodeMap_make_mnemonic :
    ∀ r ∈ opcodeMap, ∀ a b, (r.make a b).mnemonic = (r.make 0 0).mnemonic := by
  simp [opcodeMap, Instr.mnemonic]

/-- Two rows of the map have the same mnemonic exactly where they have the same opcode. -/
theorem opcodeMap_mnemonic_eq_iff : ∀ r ∈ opcodeMap, ∀ q ∈ opcodeMap,
    (r.make 0 0).mnemonic = (q.make 0 0).mnemonic ↔ r.opcode = q.opcode := by decide

theorem mnemonic_eq_iff_of_decode {op op' a b a' b' : Byte} {i j : Instr} (hi : decode op a b = .ok i)
    (hj : decode op' a' b' = .ok j) : i.mnemonic = j.mnemonic ↔ op = op' := by
  obtain ⟨r, hr, rfl⟩ := decode_ok hi
  obtain ⟨q, hq, rfl⟩ := decode_ok hj
  obtain ⟨hrmem, rfl⟩ := lookup_some hr
  obtain ⟨hqmem, rfl⟩ := lookup_some hq
  rw [opcodeMap_make_mnemonic r hrmem, opcodeMap_make_mnemonic q hqmem]
  exact opcodeMap_mnemonic_eq_iff r hrmem q hqmem

/-- Settles O2: a decoded instruction is made by the row of its opcode, and the rows have thirteen mnemonics. -/
theorem opcodeByteAloneSelects : Obligations.OpcodeByteAloneSelects := by
  unfold Obligations.OpcodeByteAloneSelects
  rw [← opcodeMap_opcodes]
  refine ⟨fun op op' a b a' b' i j hi hj => mnemonic_eq_iff_of_decode hi hj, fun op a b => ?_⟩
  split
  case isTrue hmem =>
    obtain ⟨i, hi⟩ := decode_of_mem hmem a b
    exact ⟨i, hi, opcode_of_decode hi⟩
  case isFalse hnot => exact decode_of_not_mem hnot a b

end Sys2Proof

namespace Sys2Proof.Machine

/-! ### The fetch where it fails, and the iteration after it -/

/-- The fetch fails at the first of its three addresses outside memory (R222, decision D23), with the opcode if it was
read. -/
theorem fetch_of_past {s : State} (h : s.cfg.N ≤ s.pc + 2) : fetch s = .error
    { cause := .addressOutOfRange
        (if s.cfg.N ≤ s.pc then s.pc else if s.cfg.N ≤ s.pc + 1 then s.pc + 1 else s.pc + 2)
      opcode := if s.cfg.N ≤ s.pc then none else some (s.mem.read s.pc) } := by
  by_cases h0 : s.cfg.N ≤ s.pc
  · simp [fetch, memRead_of_ge h0, h0]
  · have r0 := memRead_of_lt (Nat.not_le.1 h0)
    by_cases h1 : s.cfg.N ≤ s.pc + 1
    · simp [fetch, r0, memRead_of_ge h1, h0, h1]
    · simp [fetch, r0, memRead_of_lt (Nat.not_le.1 h1), memRead_of_ge h, h0, h1]

theorem iterate_of_fetch_error {s : State} {e : FetchFault} (hstop : s.stopDue = false) (hf : fetch s = .error e) :
    iterate s = .next (s.takeFault e.cause e.opcode) := by
  simp [iterate, hstop, hf]

theorem iterate_of_decode_error {s : State} {f : Fetched} {op : Byte} (hstop : s.stopDue = false)
    (hf : fetch s = .ok f) (hd : decode f.op f.a f.b = .error (.invalidOpcode op)) :
    iterate s = .next (s.takeFault (.invalidOpcode op) (some f.op)) := by
  simp [iterate, hstop, hf, hd]

/-- Settles O31: by whether the whole fetch fits, which decides before the decoder is asked. -/
theorem invalidOpcodeFaults : Obligations.InvalidOpcodeFaults := by
  unfold Obligations.InvalidOpcodeFaults
  rw [← opcodeMap_opcodes]
  intro s hrun hstop hop
  rw [step_of_running hrun]
  constructor
  · intro hfits
    exact iterate_of_decode_error hstop (fetch_of_fits hfits) (decode_of_not_mem hop _ _)
  · intro hpast
    exact ⟨_, _, iterate_of_fetch_error hstop (fetch_of_past hpast), rfl, rfl⟩

end Sys2Proof.Machine
end

section
/-!
Data movement (spec/41_data_movement.md R240 to R242): LDI, PRN, and the two of them in a row at the machine's pc.
-/

namespace Sys2Proof.Machine

/-! ### The two meanings -/

/-- Settles O12: the two cases of `execLdi_cases`, the immediate being a byte already. -/
theorem ldiLoadsImmediate : Obligations.LdiLoadsImmediate := by
  unfold Obligations.LdiLoadsImmediate
  refine fun a b s => ⟨rfl, rfl, fun hlt => ?_, fun hge => ?_⟩
  · rcases execLdi_cases s a b with ⟨_, hexec⟩ | ⟨hge, _⟩
    · rw [State.setReg, Byte.ofNat_toNat] at hexec
      exact hexec
    · omega
  · rcases execLdi_cases s a b with ⟨hlt, _⟩ | ⟨_, hexec⟩
    · omega
    · exact ⟨_, hexec, rfl, rfl, rfl, rfl, rfl, rfl, rfl⟩

/-- Settles O13: the two cases of `execPrn_cases`. -/
theorem prnEmitsRegister : Obligations.PrnEmitsRegister := by
  unfold Obligations.PrnEmitsRegister
  refine fun a s => ⟨rfl, fun _ => rfl, fun hlt => ?_, fun hge => ?_⟩
  · rcases execPrn_cases s a with ⟨_, hexec⟩ | ⟨hge, _⟩
    · exact hexec
    · omega
  · rcases execPrn_cases s a with ⟨hlt, _⟩ | ⟨_, hexec⟩
    · omega
    · exact ⟨_, hexec, rfl, rfl, rfl, rfl, rfl, rfl, rfl⟩

/-! ### A step where neither the stop check nor the count is present -/

theorem exec_keeps_cfg {s t : State} {i : Instr} (h : exec i s = .next t) : t.cfg = s.cfg := by
  obtain ⟨u, hexec, hcases⟩ := exec_commits_or_faults s i
  obtain rfl : t = u := by simpa only [h, Host.Outcome.next.injEq] using hexec
  rcases hcases with ⟨_, rfl⟩ | ⟨_, rfl⟩ | ⟨_, _, _, _, _, _, rfl, _⟩ <;> rfl

theorem iterate_of_decode_ok {s : State} {f : Fetched} {i : Instr} (hstop : s.stopDue = false)
    (hf : fetch s = .ok f) (hd : decode f.op f.a f.b = .ok i) : iterate s = counted (exec i s) := by
  simp [iterate, hstop, hf, hd]

/-- With neither a budget nor a stop signal, a step is the meaning of the decoded instruction and nothing more (R221). -/
theorem State.Unbounded.step_eq_exec {s : State} {i : Instr} (hs : s.Unbounded) (hfits : s.pc + 2 < s.cfg.N)
    (hd : decode (s.mem.read s.pc) (s.mem.read (s.pc + 1)) (s.mem.read (s.pc + 2)) = .ok i) :
    step s = exec i s := by
  have hiter := iterate_of_decode_ok (State.not_stopDue_of_unbounded hs) (fetch_of_fits hfits) hd
  obtain ⟨t, hexec, _⟩ := exec_commits_or_faults s i
  have hcfg : t.cfg = s.cfg := exec_keeps_cfg hexec
  have hcount : t.countStep = t := by
    apply State.countStep_of_not_counting
    · rw [State.counting, hcfg]
      exact State.not_counting_of_unbounded hs
    · rw [State.tallying, hcfg]
      exact State.not_tallying_of_unbounded hs
  rw [step_of_running hs.1, hiter, hexec, counted_next, hcount]

/-! ### Code at the pc, and the runs over it -/

theorem State.CodeAt.left {s : State} {xs ys : List Byte} (h : s.CodeAt (xs ++ ys)) : s.CodeAt xs := by
  intro k hk
  rw [h k (by rw [List.length_append]; omega), List.getD_append _ _ _ _ hk]

/-- Once the pc has moved past the first part of the code, it stands at the rest. -/
theorem State.CodeAt.right {s t : State} {xs ys : List Byte} (h : s.CodeAt (xs ++ ys)) (hmem : t.mem = s.mem)
    (hpc : t.pc = s.pc + xs.length) : t.CodeAt ys := by
  intro k hk
  rw [hmem, hpc, Nat.add_assoc, h _ (by rw [List.length_append]; omega),
    List.getD_append_right _ _ _ _ (Nat.le_add_right _ _), Nat.add_sub_cancel_left]

theorem core_run_succ {s t : State} (k : Nat) (h : step s = .next t) :
    Host.Core.run Sys2Proof.core (k + 1) s = Host.Core.run Sys2Proof.core k t := by
  have hcore : Sys2Proof.core.step s = .next t := h
  simp only [Host.Core.run, hcore]

/-! ### LDI and PRN as steps -/

theorem State.Unbounded.step_ldi {s : State} {a b : Byte} (hs : s.Unbounded) (hfits : s.pc + 2 < s.cfg.N)
    (hcode : s.CodeAt [0x82, a, b]) (ha : a.toNat < 8) :
    step s = .next { s with x := s.x.set a.toNat b ha, pc := s.pc + 3 } := by
  have hop : s.mem.read s.pc = 0x82 := hcode 0 (by simp)
  have harg : s.mem.read (s.pc + 1) = a := hcode 1 (by simp)
  have himm : s.mem.read (s.pc + 2) = b := hcode 2 (by simp)
  obtain ⟨_, hdecode, hexec, _⟩ := ldiLoadsImmediate a b s
  rw [hs.step_eq_exec hfits (by rw [hop, harg, himm, hdecode]), hexec ha]

/-- The third byte fetched is whatever follows the PRN. -/
theorem State.Unbounded.step_prn {s : State} {a v : Byte} (hs : s.Unbounded) (hfits : s.pc + 2 < s.cfg.N)
    (hcode : s.CodeAt [0x47, a]) (ha : a.toNat < 8) (hv : s.x[a.toNat] = v) :
    step s = .next { s with out := s.out ++ [v], pc := s.pc + 2 } := by
  have hop : s.mem.read s.pc = 0x47 := hcode 0 (by simp)
  have harg : s.mem.read (s.pc + 1) = a := hcode 1 (by simp)
  obtain ⟨_, hdecode, hexec, _⟩ := prnEmitsRegister a s
  rw [hs.step_eq_exec hfits (by rw [hop, harg, hdecode]), hexec ha, hv]

/-- Settles O49: a step of LDI and a step of PRN, which reads back the byte just written. -/
theorem ldiThenPrnReproducesValue : Obligations.LdiThenPrnReproducesValue := by
  unfold Obligations.LdiThenPrnReproducesValue
  intro s i v hi hs hfits hcode
  have hboth : s.CodeAt ([0x82, i, v] ++ [0x47, i]) := hcode
  have hldi := hs.step_ldi (by omega) hboth.left hi
  have hprn := State.Unbounded.step_prn (s := { s with x := s.x.set i.toNat v hi, pc := s.pc + 3 }) hs hfits
    (hboth.right rfl rfl) hi (Vector.getElem_set_self hi)
  exact (core_run_succ 1 hldi).trans (core_run_succ 0 hprn)

end Sys2Proof.Machine
end

section
/-!
Jumps (spec/46_jump.md R290): JMP, whose target is a whole byte of a register.
-/

namespace Sys2Proof.Machine

/-- Settles O21: the two cases of `execJmp_cases`, of which the fault keeps the state of the beginning, its pc included. -/
theorem jmpGoesToRegister : Obligations.JmpGoesToRegister := by
  unfold Obligations.JmpGoesToRegister
  refine fun a s => ⟨rfl, fun _ => rfl, fun hlt => ?_, fun hge => ?_⟩
  · rcases execJmp_cases s a with ⟨_, hexec⟩ | ⟨hge, _⟩
    · exact hexec
    · omega
  · rcases execJmp_cases s a with ⟨hlt, _⟩ | ⟨_, hexec⟩
    · omega
    · exact ⟨_, hexec, rfl, rfl, rfl, rfl, rfl, rfl, rfl⟩

end Sys2Proof.Machine
end

section
/-!
HALT (spec/47_halt.md R300): the end of a run, and the ways to it that are closed.
-/

namespace Sys2Proof.Machine

theorem iterate_of_stopDue {s : State} (h : s.stopDue = true) :
    iterate s = .next (s.takeFault (.stopped s.started) none) := if_pos h

/-- Where the fetch cannot complete, a step faults whatever the bytes there: by the stop check, or else by the fetch. -/
theorem step_takes_fault_of_past {s : State} (hrun : s.es = .running) (hpast : s.cfg.N ≤ s.pc + 2) :
    ∃ c op, step s = .next (s.takeFault c op) := by
  rw [step_of_running hrun]
  cases hstop : s.stopDue with
  | true => exact ⟨_, _, iterate_of_stopDue hstop⟩
  | false => exact ⟨_, _, iterate_of_fetch_error hstop (fetch_of_past hpast)⟩

/-- A fault ends in Faulted and a commit leaves the engine state, so only the third outcome of `exec_commits_or_faults`
reaches Halted. -/
theorem eq_halt_of_exec_reaches_halted {s t : State} {i : Instr} (h : exec i s = .next t) (hs : s.es ≠ .halted)
    (ht : t.es = .halted) : i = .halt := by
  obtain ⟨u, hexec, hcases⟩ := exec_commits_or_faults s i
  obtain rfl : t = u := by simpa only [h, Host.Outcome.next.injEq] using hexec
  rcases hcases with ⟨_, rfl⟩ | ⟨hi, _⟩ | ⟨_, _, _, _, _, _, rfl, _⟩
  · cases ht
  · exact hi
  · exact absurd ht hs

/-- Settles O24: HALT's own outcome is `execHalt_eq`; where it cannot be fetched is `step_takes_fault_of_past`, that no
other instruction halts is `eq_halt_of_exec_reaches_halted`, and a halted engine does not step. -/
theorem haltEndsTheRun : Obligations.HaltEndsTheRun := by
  unfold Obligations.HaltEndsTheRun
  refine ⟨rfl, fun _ _ => rfl, execHalt_eq, fun s t hrun hpast hstep => ?_,
    fun i s t hexec hs ht => eq_halt_of_exec_reaches_halted hexec hs ht, fun s hs => ?_⟩
  · obtain ⟨c, op, hfault⟩ := step_takes_fault_of_past hrun hpast
    obtain rfl : t = s.takeFault c op := by simpa only [hstep, Host.Outcome.next.injEq] using hfault
    exact State.takeFault_es s c op
  · exact step_of_not_running (by rw [hs]; decide)

end Sys2Proof.Machine
end

section
/-!
The outcome of a run (spec/70_reset_and_hazards.md R355): how a step from Running can end, and what the host
is told of it.
-/

namespace Sys2Proof.Machine

/-! ### The outcome in each engine state -/

theorem State.outcome_of_halted {s : State} (h : s.es = .halted) : s.outcome = some .halted := by
  simp [State.outcome, h]

theorem State.outcome_of_faulted {s : State} {r : FaultRecord} (h : s.es = .faulted) (hr : s.fr = some r) :
    s.outcome = some (.faulted r) := by
  simp [State.outcome, h, hr]

theorem State.outcome_of_running {s : State} (h : s.es = .running) : s.outcome = none := by
  simp [State.outcome, h]

/-! ### The ends of a step -/

/-- The next step executes HALT: no stop is due, the fetch fits, and its bytes decode to HALT (R221). -/
def State.ExecutesHalt (s : State) : Prop :=
  s.stopDue = false ∧ s.pc + 2 < s.cfg.N ∧
    decode (s.mem.read s.pc) (s.mem.read (s.pc + 1)) (s.mem.read (s.pc + 2)) = .ok .halt

/-- The engine has faulted and holds the record of it (R136). -/
def State.FaultRecorded (s : State) : Prop := ∃ r, s.es = .faulted ∧ s.fr = some r

theorem State.faultRecorded_takeFault (s : State) (c : FaultCause) (op : Option Byte) :
    (s.takeFault c op).FaultRecorded := ⟨_, s.takeFault_es c op, s.takeFault_fr c op⟩

theorem State.FaultRecorded.countStep {s : State} (h : s.FaultRecorded) : s.countStep.FaultRecorded := by
  obtain ⟨r, hes, hfr⟩ := h
  exact ⟨r, s.countStep_es.trans hes, s.countStep_fr.trans hfr⟩

/-- An instruction other than HALT faults with a record or leaves the engine state. -/
theorem exec_faults_or_keeps_es {s : State} {i : Instr} (hi : i ≠ .halt) :
    ∃ t, exec i s = .next t ∧ (t.FaultRecorded ∨ t.es = s.es) := by
  obtain ⟨t, hexec, hcases⟩ := exec_commits_or_faults s i
  refine ⟨t, hexec, ?_⟩
  rcases hcases with ⟨c, rfl⟩ | ⟨hhalt, _⟩ | ⟨_, _, _, _, _, _, rfl, _⟩
  · exact .inl (s.faultRecorded_takeFault c _)
  · exact absurd hhalt hi
  · exact .inr rfl

theorem iterate_of_executesHalt {s : State} (h : s.ExecutesHalt) : ∃ t, iterate s = .next t ∧ t.es = .halted := by
  obtain ⟨hstop, hfits, hdecode⟩ := h
  have hexec : exec .halt s = .next { s with es := .halted } := execHalt_eq s
  refine ⟨_, ?_, State.countStep_es { s with es := .halted }⟩
  rw [iterate_of_decode_ok hstop (fetch_of_fits hfits) hdecode, hexec, counted_next]

/-- An iteration that does not execute HALT faults with a record or leaves the engine state. -/
theorem iterate_of_not_executesHalt {s : State} (h : ¬ s.ExecutesHalt) :
    ∃ t, iterate s = .next t ∧ (t.FaultRecorded ∨ t.es = s.es) := by
  rcases iterate_cases s with
    ⟨_, hiter⟩ | ⟨_, _, _, _, hiter⟩ | ⟨_, _, _, hiter⟩ | ⟨hstop, hfits, i, hdecode, hiter⟩
  · exact ⟨_, hiter, .inl (s.faultRecorded_takeFault _ _)⟩
  · exact ⟨_, hiter, .inl (s.faultRecorded_takeFault _ _)⟩
  · exact ⟨_, hiter, .inl (s.faultRecorded_takeFault _ _)⟩
  · have hi : i ≠ .halt := by
      rintro rfl
      exact h ⟨hstop, hfits, hdecode⟩
    obtain ⟨t, hexec, hend⟩ := exec_faults_or_keeps_es (s := s) hi
    refine ⟨t.countStep, by rw [hiter, hexec, counted_next], ?_⟩
    exact hend.imp State.FaultRecorded.countStep t.countStep_es.trans

/-- The three ends of a step from Running; executing HALT is the first of them and no other. -/
theorem step_ends_of_running {s t : State} (hrun : s.es = .running) (hstep : step s = .next t) :
    (s.ExecutesHalt ∧ t.es = .halted) ∨ (¬ s.ExecutesHalt ∧ (t.FaultRecorded ∨ t.es = .running)) := by
  rw [step_of_running hrun] at hstep
  by_cases hhalt : s.ExecutesHalt
  · obtain ⟨u, hiter, hes⟩ := iterate_of_executesHalt hhalt
    obtain rfl : t = u := by simpa only [hstep, Host.Outcome.next.injEq] using hiter
    exact .inl ⟨hhalt, hes⟩
  · obtain ⟨u, hiter, hend⟩ := iterate_of_not_executesHalt hhalt
    obtain rfl : t = u := by simpa only [hstep, Host.Outcome.next.injEq] using hiter
    exact .inr ⟨hhalt, hend.imp_right (·.trans hrun)⟩

/-- Settles O58: each of the three ends of `step_ends_of_running` has its own outcome, and the first alone executes
HALT. -/
theorem outcomeIsHaltedOnlyByHalt : Obligations.OutcomeIsHaltedOnlyByHalt := by
  unfold Obligations.OutcomeIsHaltedOnlyByHalt
  intro s t hrun hstep
  change (t.outcome = some .halted ↔ s.ExecutesHalt) ∧ _
  rcases step_ends_of_running hrun hstep with ⟨hhalt, hes⟩ | ⟨hhalt, ⟨r, hes, hfr⟩ | hes⟩
  · simp [State.outcome_of_halted hes, hhalt, hes]
  · simp [State.outcome_of_faulted hes hfr, hhalt, hes, hfr]
  · simp [State.outcome_of_running hes, hhalt, hes]

end Sys2Proof.Machine
end

section
/-!
The frame of control state (spec/10_state.md R132 to R136) and the invariant: reset meets it, every step and every host
transaction keeps it.
-/

namespace Sys2Proof.Machine

/-! ### What no instruction writes -/

/-- `exec_commits_or_faults` read backwards from the state the instruction answers. -/
theorem exec_next_cases {s t : State} {i : Instr} (h : exec i s = .next t) :
    (∃ c, t = s.takeFault c (some i.opcode)) ∨ (i = .halt ∧ t = { s with es := .halted }) ∨
      (i ≠ .halt ∧ Committed s t) := by
  obtain ⟨u, hexec, hcases⟩ := exec_commits_or_faults s i
  obtain rfl : t = u := by simpa only [h, Host.Outcome.next.injEq] using hexec
  exact hcases

/-- Settles O46: a fault, HALT and a commit are the three ends of an instruction, and none of them writes the
configuration, the counters or the stop signal. -/
theorem controlStateFrame : Obligations.ControlStateFrame := by
  unfold Obligations.ControlStateFrame
  intro i s t h
  rcases exec_next_cases h with ⟨c, rfl⟩ | ⟨hi, rfl⟩ | ⟨_, _, _, _, _, _, rfl, _⟩
  · exact ⟨rfl, rfl, rfl, rfl, .inr (.inr ⟨rfl, by simp, rfl⟩)⟩
  · exact ⟨rfl, rfl, rfl, rfl, .inr (.inl ⟨hi, rfl, rfl⟩)⟩
  · exact ⟨rfl, rfl, rfl, rfl, .inl ⟨rfl, rfl⟩⟩

/-! ### The ends of a step keep the invariant -/

/-- No iteration is left of a budget that is used up, and the stop check is then due (R230). -/
theorem State.steps_ne_of_not_stopDue {s : State} {k : Nat} (h : s.stopDue = false) (hk : s.cfg.stepBudget = some k) :
    s.steps ≠ k := by
  rintro rfl
  simp [State.stopDue, hk] at h

theorem State.Inv.steps_lt {s : State} {k : Nat} (h : s.Inv) (hstop : s.stopDue = false)
    (hk : s.cfg.stepBudget = some k) : s.steps < k :=
  lt_of_le_of_ne (h.budget k hk) (s.steps_ne_of_not_stopDue hstop hk)

theorem State.Inv.fr_of_not_faulted {s : State} (h : s.Inv) (hes : s.es ≠ .faulted) : s.fr = none := by
  by_contra hfr
  exact hes (h.recorded.2 (Option.isSome_iff_ne_none.2 hfr))

theorem State.Inv.takeFault {s : State} (h : s.Inv) (c : FaultCause) (op : Option Byte) : (s.takeFault c op).Inv where
  canonical := h.canonical
  inRange := h.inRange
  pcRange := h.pcRange
  recorded := by simp
  recordPc := by rintro _ ⟨⟩; rfl
  budget := h.budget
  uncounted := h.uncounted
  untallied := h.untallied
  stopExists := h.stopExists
  idleFresh := by rintro ⟨⟩

theorem State.Inv.halted {s : State} (h : s.Inv) (hrun : s.es = .running) : ({ s with es := .halted } : State).Inv where
  canonical := h.canonical
  inRange := h.inRange
  pcRange := h.pcRange
  recorded := by simp [h.fr_of_not_faulted (by simp [hrun])]
  recordPc := h.recordPc
  budget := h.budget
  uncounted := h.uncounted
  untallied := h.untallied
  stopExists := h.stopExists
  idleFresh := by rintro ⟨⟩

/-- A commit after a fetch that fits: the pc advances by at most 3 or is a byte, and a store is inside memory. -/
theorem State.Inv.committed {s t : State} (h : s.Inv) (hrun : s.es = .running) (hfits : s.pc + 2 < s.cfg.N)
    (ht : Committed s t) : t.Inv := by
  have hN := N_le s.cfg
  have hfr : s.fr = none := h.fr_of_not_faulted (by simp [hrun])
  obtain ⟨x, m, p, f, o, rfl, hp, hm⟩ := ht
  have hmem : m.wf ∧ m.below s.cfg.N := by
    rcases hm with rfl | ⟨haddr, v, rfl⟩
    · exact ⟨h.canonical, h.inRange⟩
    · exact ⟨Memory.wf_put h.canonical, Memory.below_put h.inRange haddr⟩
  exact {
    canonical := hmem.1
    inRange := hmem.2
    pcRange := by rcases hp with hp | hp <;> (simp only; omega)
    recorded := by simp [hrun, hfr]
    recordPc := by simp [hfr]
    budget := h.budget
    uncounted := h.uncounted
    untallied := h.untallied
    stopExists := h.stopExists
    idleFresh := by simp [hrun] }

/-- The count of an iteration keeps the invariant while the budget is not used up. -/
theorem State.Inv.countStep {s : State} (h : s.Inv) (hidle : s.es ≠ .idle)
    (hlt : ∀ k, s.cfg.stepBudget = some k → s.steps < k) : s.countStep.Inv := by
  by_cases hes : s.es = .faulted
  · rwa [State.countStep_of_faulted hes]
  rw [State.countStep_of_not_faulted hes]
  exact {
    canonical := h.canonical
    inRange := h.inRange
    pcRange := h.pcRange
    recorded := h.recorded
    recordPc := h.recordPc
    budget := by
      intro k hk
      have hbudget : s.cfg.stepBudget = some k := hk
      have hcount : s.counting = true := by simp [State.counting, hbudget]
      simpa [hcount] using hlt k hk
    uncounted := fun hc => by
      have hcount : s.counting = false := hc
      simpa [hcount] using h.uncounted hcount
    untallied := fun hc => by
      have htally : s.tallying = false := hc
      simpa [htally] using h.untallied htally
    stopExists := h.stopExists
    idleFresh := fun hi => absurd hi hidle }

theorem State.Inv.exec {s t : State} {i : Instr} (h : s.Inv) (hrun : s.es = .running) (hfits : s.pc + 2 < s.cfg.N)
    (hexec : exec i s = .next t) : t.Inv := by
  rcases exec_next_cases hexec with ⟨c, rfl⟩ | ⟨_, rfl⟩ | ⟨_, hcommit⟩
  · exact h.takeFault c _
  · exact h.halted hrun
  · exact h.committed hrun hfits hcommit

/-- No instruction returns a running engine to Idle. -/
theorem exec_es_ne_idle {s t : State} {i : Instr} (hrun : s.es = .running) (h : exec i s = .next t) : t.es ≠ .idle := by
  obtain ⟨_, _, _, _, ⟨hes, _⟩ | ⟨_, hes, _⟩ | ⟨hes, _⟩⟩ := controlStateFrame i s t h <;> simp [hes, hrun]

theorem State.Inv.iterate {s : State} (h : s.Inv) (hrun : s.es = .running) : ∃ t, iterate s = .next t ∧ t.Inv := by
  rcases iterate_cases s with
    ⟨_, hiter⟩ | ⟨_, _, _, _, hiter⟩ | ⟨_, _, _, hiter⟩ | ⟨hstop, hfits, i, _, hiter⟩
  · exact ⟨_, hiter, h.takeFault _ _⟩
  · exact ⟨_, hiter, h.takeFault _ _⟩
  · exact ⟨_, hiter, h.takeFault _ _⟩
  · obtain ⟨t, hexec, _⟩ := exec_commits_or_faults s i
    obtain ⟨hcfg, hsteps, _⟩ := controlStateFrame i s t hexec
    refine ⟨t.countStep, by rw [hiter, hexec, counted_next],
      (h.exec hrun hfits hexec).countStep (exec_es_ne_idle hrun hexec) fun k hk => ?_⟩
    rw [hsteps]
    exact h.steps_lt hstop (hcfg ▸ hk)

/-- Settles O39: outside Running nothing moves, and in it `State.Inv.iterate` goes through the ends of an iteration. -/
theorem stepKeepsInvariant : Obligations.StepKeepsInvariant := by
  unfold Obligations.StepKeepsInvariant
  intro s t h hstep
  by_cases hrun : s.es = .running
  · obtain ⟨u, hiter, hu⟩ := h.iterate hrun
    rw [step_of_running hrun, hiter] at hstep
    cases hstep
    exact hu
  · rw [step_of_not_running hrun] at hstep
    cases hstep
    exact h

/-! ### Reset and the host's transactions -/

theorem State.Inv.construct (c : Config) : (State.construct c).Inv where
  canonical := Memory.wf_nil
  inRange := by simp
  pcRange := by simp
  recorded := by simp
  recordPc := by simp
  budget := by simp
  uncounted := by simp
  untallied := by simp
  stopExists := by simp
  idleFresh _ := rfl

/-- Settles O40: reset is the construction in the reference configuration. -/
theorem resetMeetsInvariant : Obligations.ResetMeetsInvariant := by
  unfold Obligations.ResetMeetsInvariant
  exact ⟨State.Inv.construct _, State.Inv.construct⟩

/-- A load into an Idle engine leaves it fresh but for memory, which is all that `idleFresh` leaves open. -/
theorem State.Inv.putAll {s : State} (h : s.Inv) {start : Nat} {bytes : List Byte}
    (hfit : start + bytes.length ≤ s.cfg.N) : ({ s with mem := s.mem.putAll start bytes } : State).Inv where
  canonical := Memory.wf_putAll h.canonical
  inRange := Memory.below_putAll h.inRange hfit
  pcRange := h.pcRange
  recorded := h.recorded
  recordPc := h.recordPc
  budget := h.budget
  uncounted := h.uncounted
  untallied := h.untallied
  stopExists := h.stopExists
  idleFresh hidle := congrArg (fun t : State => { t with mem := s.mem.putAll start bytes }) (h.idleFresh hidle)

theorem State.Inv.load {s : State} (h : s.Inv) (bytes : List Byte) (start : Nat) : (s.load bytes start).1.Inv := by
  unfold State.load
  split_ifs with hidle hnil hfit
  · exact h
  · exact h
  · exact h.putAll hfit
  · exact h

theorem State.Inv.startRun {s : State} (h : s.Inv) (hidle : s.es = .idle) : s.startRun.Inv where
  canonical := h.canonical
  inRange := h.inRange
  pcRange := by simp
  recorded := by simp [h.fr_of_not_faulted (by simp [hidle])]
  recordPc := by simp [h.fr_of_not_faulted (by simp [hidle])]
  budget := by simp
  uncounted := by simp
  untallied := h.untallied
  stopExists := h.stopExists
  idleFresh := by simp

theorem State.Inv.assertStop {s : State} (h : s.Inv) (hrun : s.es = .running) (hinput : s.cfg.stopInput = true) :
    ({ s with stop := true } : State).Inv where
  canonical := h.canonical
  inRange := h.inRange
  pcRange := h.pcRange
  recorded := h.recorded
  recordPc := h.recordPc
  budget := h.budget
  uncounted := h.uncounted
  untallied := h.untallied
  stopExists _ := hinput
  idleFresh := by simp [hrun]

/-- Settles O41: reading changes nothing, and each of the other transactions has its lemma. -/
theorem hostActionsKeepInvariant : Obligations.HostActionsKeepInvariant := by
  unfold Obligations.HostActionsKeepInvariant
  intro s act h
  cases act with
  | reset c => exact State.Inv.construct c
  | load bytes start => exact h.load bytes start
  | run =>
    simp only [State.transact]
    split_ifs with hidle
    · exact h.startRun hidle
    · exact h
  | assertStop =>
    simp only [State.transact]
    split_ifs with hcan
    · exact h.assertStop hcan.1 hcan.2
    · exact h
  | readOutput => exact h
  | readFinal =>
    simp only [State.transact]
    split_ifs <;> exact h

end Sys2Proof.Machine
end

section
/-!
Encoding and decoding (spec/30_encoding.md sections 1 to 3) as inverses of each other, row by row of the opcode map.
-/

namespace Sys2Proof

/-! ### The rows of the map -/

theorem decode_of_lookup {op : Byte} {r : OpcodeRow} (h : lookup op = some r) (a b : Byte) :
    decode op a b = .ok (r.make a b) := by
  simp [decode, h]

/-- What a row makes encodes to the row's opcode and the operand bytes, cut at the row's length (R191, R196). -/
theorem opcodeMap_make_encode : ∀ r ∈ opcodeMap, ∀ a b, encode (r.make a b) = [r.opcode, a, b].take r.length := by
  simp [opcodeMap, encode]

/-- A row of length 2 does not use its second operand byte (R201). -/
theorem opcodeMap_make_of_length_two : ∀ r ∈ opcodeMap, r.length = 2 → ∀ a b b', r.make a b' = r.make a b := by
  simp [opcodeMap]

/-- A row of length 1 uses neither operand byte (R201). -/
theorem opcodeMap_make_of_length_one : ∀ r ∈ opcodeMap, r.length = 1 → ∀ a b a' b', r.make a' b' = r.make a b := by
  simp [opcodeMap]

/-! ### The obligations -/

/-- Settles O3: by the length of the instruction, the encoding fixes the opcode and as many operand bytes as the
instruction has, and the decoder's row makes it of just those. -/
theorem decodeInvertsEncode : Obligations.DecodeInvertsEncode := by
  unfold Obligations.DecodeInvertsEncode
  intro i op a b following rest h
  cases i
  case ldi | mul | add | cmp =>
    simp only [encode, List.cons_append, List.cons.injEq] at h
    obtain ⟨rfl, rfl, rfl, _⟩ := h
    rfl
  case prn | push | pop | call | jmp | jeq | jne =>
    simp only [encode, List.cons_append, List.cons.injEq] at h
    obtain ⟨rfl, rfl, _⟩ := h
    rfl
  case ret | halt =>
    simp only [encode, List.cons_append, List.cons.injEq] at h
    obtain ⟨rfl, _⟩ := h
    rfl

/-- Settles O4: the decoded instruction was made by a row of the map. -/
theorem encodeInvertsDecode : Obligations.EncodeInvertsDecode := by
  unfold Obligations.EncodeInvertsDecode
  intro op a b i h
  obtain ⟨r, hr, rfl⟩ := decode_ok h
  obtain ⟨hmem, rfl⟩ := lookup_some hr
  rw [opcodeMap_make_encode r hmem, (opcodeMap_make r hmem a b).2]

/-- Settles O5: the row of the opcode makes the same instruction of any bytes there. -/
theorem bytesBeyondLengthIgnored : Obligations.BytesBeyondLengthIgnored := by
  unfold Obligations.BytesBeyondLengthIgnored
  intro op a b a' b' i h
  obtain ⟨r, hr, rfl⟩ := decode_ok h
  obtain ⟨hmem, _⟩ := lookup_some hr
  rw [(opcodeMap_make r hmem a b).2]
  refine ⟨fun hlen => ?_, fun hlen => ?_⟩
  · rw [decode_of_lookup hr, opcodeMap_make_of_length_two r hmem hlen a b b']
  · rw [decode_of_lookup hr, opcodeMap_make_of_length_one r hmem hlen a b a' b']

/-- Settles O1: each word decodes by the row of its opcode, the last by none. -/
theorem wordsOfTheTableDecode : Obligations.WordsOfTheTableDecode := by
  unfold Obligations.WordsOfTheTableDecode
  exact ⟨rfl, rfl, rfl, rfl, rfl, rfl, rfl, rfl, rfl⟩

end Sys2Proof
end

section
/-!
The ALU and the compare function (spec/42_arithmetic.md R250, spec/45_comparison.md R280).
-/

namespace Sys2Proof.Machine

/-- Settles O10: by whether the operation is Add. -/
theorem aluAddsAndRejectsTheRest : Obligations.AluAddsAndRejectsTheRest := by
  unfold Obligations.AluAddsAndRejectsTheRest
  refine fun lhs rhs => ⟨⟨_, rfl, BitVec.toNat_ofNat _ _⟩, fun op hop => ?_⟩
  cases op with
  | add => exact absurd rfl hop
  | other n => rfl

/-- The three answers of the comparison, one for each way two bytes can stand in the unsigned order. -/
theorem compare_cases (u v : Byte) :
    (u = v ∧ compare u v = .equal) ∨ (u.toNat < v.toNat ∧ compare u v = .less) ∨
      (v.toNat < u.toNat ∧ compare u v = .greater) := by
  rcases lt_trichotomy u.toNat v.toNat with hlt | heq | hgt
  · exact .inr (.inl ⟨hlt, by rw [compare, if_neg hlt.ne, if_pos hlt]⟩)
  · exact .inl ⟨BitVec.eq_of_toNat_eq heq, if_pos heq⟩
  · exact .inr (.inr ⟨hgt, by rw [compare, if_neg hgt.ne', if_neg hgt.not_gt]⟩)

theorem compare_eq_equal_iff (u v : Byte) : compare u v = .equal ↔ u = v := by
  rcases compare_cases u v with ⟨rfl, h⟩ | ⟨hlt, h⟩ | ⟨hgt, h⟩
  · simp [h]
  · simp [h, show u ≠ v by rintro rfl; omega]
  · simp [h, show u ≠ v by rintro rfl; omega]

theorem compare_eq_less_iff (u v : Byte) : compare u v = .less ↔ u.toNat < v.toNat := by
  rcases compare_cases u v with ⟨rfl, h⟩ | ⟨hlt, h⟩ | ⟨hgt, h⟩
  · simp [h]
  · simp [h, hlt]
  · simp [h, hgt.le]

theorem compare_eq_greater_iff (u v : Byte) : compare u v = .greater ↔ v.toNat < u.toNat := by
  rcases compare_cases u v with ⟨rfl, h⟩ | ⟨hlt, h⟩ | ⟨hgt, h⟩
  · simp [h]
  · simp [h, hlt.le]
  · simp [h, hgt]

theorem compare_ne_unset (u v : Byte) : compare u v ≠ .unset := by
  rcases compare_cases u v with ⟨_, h⟩ | ⟨_, h⟩ | ⟨_, h⟩ <;> simp [h]

/-- Settles O11: the swap law is the order read from either side. -/
theorem compareIsUnsignedOrder : Obligations.CompareIsUnsignedOrder := by
  unfold Obligations.CompareIsUnsignedOrder
  refine fun u v => ⟨compare_eq_equal_iff u v, compare_eq_less_iff u v, compare_eq_greater_iff u v,
    compare_ne_unset u v, ?_, ?_⟩
  · rw [compare_eq_less_iff, compare_eq_greater_iff]
  · rw [compare_eq_equal_iff, compare_eq_equal_iff, eq_comm]

end Sys2Proof.Machine
end

section
/-!
Every instruction as a check and an effect: the fault its operands and the stack raise, if any (decision D8), and else
what it does, as functions of the state. `exec_eq` ties the two to `exec`.
-/

namespace Sys2Proof.Machine

/-! ### Registers named by a byte, in range or not -/

/-- The register a byte names, 0 for a byte that names none. -/
def State.regAt (s : State) (k : Byte) : Byte := s.x[k.toNat]?.getD 0

/-- A write of the register a byte names, none for a byte that names none. -/
def State.setRegAt (s : State) (k : Byte) (v : Nat) : State :=
  { s with x := s.x.setIfInBounds k.toNat (Byte.ofNat v) }

@[simp] theorem State.regAt_of_lt (s : State) {k : Byte} (h : k.toNat < 8) : s.regAt k = s.reg ⟨k.toNat, h⟩ := by
  simp [State.regAt, State.reg, h]

@[simp] theorem State.setRegAt_of_lt (s : State) {k : Byte} (h : k.toNat < 8) (v : Nat) :
    s.setRegAt k v = s.setReg ⟨k.toNat, h⟩ v := by
  simp [State.setRegAt, State.setReg, Vector.setIfInBounds, Vector.set, Array.setIfInBounds, h]

theorem State.setRegAt_x_of_ne (s : State) {k : Byte} {r : Fin 8} (h : k.toNat ≠ r.val) (v : Nat) :
    (s.setRegAt k v).x[r] = s.x[r] := by
  simp [State.setRegAt, h]

/-! ### The checks -/

/-- The check of a register operand (R122). -/
def registerFault (k : Byte) : Option FaultCause := if 8 ≤ k.toNat then some (.invalidRegister k) else none

/-- The checks of a push: the stack (decision D7), then the range of its store. -/
def pushFault (s : State) : Option FaultCause :=
  if s.sp = 0 then some (.stackOverflow 0)
  else if s.cfg.N ≤ s.pushAddr then some (.addressOutOfRange s.pushAddr) else none

/-- The checks of a pop: the stack (decision D6), then the range of its load. -/
def popFault (s : State) : Option FaultCause :=
  if s.cfg.tos ≤ s.sp then some (.stackUnderflow s.sp)
  else if s.cfg.N ≤ s.sp.toNat then some (.addressOutOfRange s.sp.toNat) else none

/-- The fault an instruction raises in a state, if it raises one: its first failing check (decisions D8, D11). -/
def State.faultOf (s : State) : Instr → Option FaultCause
  | .ldi a _ => registerFault a
  | .prn a => registerFault a
  | .mul a b => (registerFault a).or (registerFault b)
  | .add a b => (registerFault a).or (registerFault b)
  | .push a => (registerFault a).or (pushFault s)
  | .pop a => (registerFault a).or (popFault s)
  | .call a => (registerFault a).or (pushFault s)
  | .ret => popFault s
  | .cmp a b => (registerFault a).or (registerFault b)
  | .jmp a => registerFault a
  | .jeq a => if s.fl = .equal then registerFault a else none
  | .jne a => if s.fl = .equal then none else registerFault a
  | .halt => none

@[simp] theorem registerFault_of_lt {k : Byte} (h : k.toNat < 8) : registerFault k = none := if_neg (by omega)

@[simp] theorem registerFault_of_ge {k : Byte} (h : 8 ≤ k.toNat) :
    registerFault k = some (.invalidRegister k) := if_pos h

theorem pushFault_of_zero {s : State} (h : s.sp = 0) : pushFault s = some (.stackOverflow 0) := if_pos h

theorem pushFault_of_ge {s : State} (h : s.sp ≠ 0) (hN : s.cfg.N ≤ s.pushAddr) :
    pushFault s = some (.addressOutOfRange s.pushAddr) := by
  rw [pushFault, if_neg h, if_pos hN]

theorem pushFault_of_lt {s : State} (h : s.sp ≠ 0) (hN : s.pushAddr < s.cfg.N) : pushFault s = none := by
  rw [pushFault, if_neg h, if_neg (by omega)]

theorem popFault_of_empty {s : State} (h : s.cfg.tos ≤ s.sp) : popFault s = some (.stackUnderflow s.sp) := if_pos h

theorem popFault_of_ge {s : State} (h : s.sp < s.cfg.tos) (hN : s.cfg.N ≤ s.sp.toNat) :
    popFault s = some (.addressOutOfRange s.sp.toNat) := by
  rw [popFault, if_neg (BitVec.not_le.2 h), if_pos hN]

theorem popFault_of_lt {s : State} (h : s.sp < s.cfg.tos) (hN : s.sp.toNat < s.cfg.N) : popFault s = none := by
  rw [popFault, if_neg (BitVec.not_le.2 h), if_neg (by omega)]

/-! ### The effects -/

/-- What an instruction that passes its checks does. PUSH and CALL read their register after SP was decremented, POP
increments SP after its register write (decision D12). -/
def State.effect (s : State) : Instr → State
  | .ldi a b => { s.setRegAt a b.toNat with pc := s.pc + 3 }
  | .prn a => { s.emit (s.regAt a) with pc := s.pc + 2 }
  | .mul a b => { s.setRegAt a ((s.regAt a).toNat * (s.regAt b).toNat) with pc := s.pc + 3 }
  | .add a b => { s.setRegAt a (Byte.ofNat ((s.regAt a).toNat + (s.regAt b).toNat)).toNat with pc := s.pc + 3 }
  | .push a => { s.pushed ((s.setReg spIndex s.pushAddr).regAt a) with pc := s.pc + 2 }
  | .pop a => { (s.setRegAt a (s.mem.read s.sp.toNat).toNat).releaseSlot with pc := s.pc + 2 }
  | .call a => { s.pushed (returnAddress s) with pc := ((s.setReg spIndex s.pushAddr).regAt a).toNat }
  | .ret => { s.releaseSlot with pc := (s.mem.read s.sp.toNat).toNat }
  | .cmp a b => { s.setFlag (compare (s.regAt a) (s.regAt b)) with pc := s.pc + 3 }
  | .jmp a => { s with pc := (s.regAt a).toNat }
  | .jeq a => { s with pc := if s.fl = .equal then (s.regAt a).toNat else s.pc + 2 }
  | .jne a => { s with pc := if s.fl = .equal then s.pc + 2 else (s.regAt a).toNat }
  | .halt => { s with es := .halted }

/-! ### `exec` is the check and the effect -/

/-- In each branch of an instruction's own case lemma, the hypotheses of the branch decide the checks, and the check and
the effect compute to what the lemma says the instruction answers. -/
theorem exec_eq (i : Instr) (s : State) :
    exec i s = .next ((s.faultOf i).elim (s.effect i) fun c => s.takeFault c (some i.opcode)) := by
  cases i
  case ldi a b =>
    rcases execLdi_cases s a b with ⟨ha, e⟩ | ⟨ha, e⟩
    · exact e.trans (by simp [State.faultOf, ha, State.effect])
    · exact e.trans (by simp [State.faultOf, ha, Instr.opcode])
  case prn a =>
    rcases execPrn_cases s a with ⟨ha, e⟩ | ⟨ha, e⟩
    · exact e.trans (by simp [State.faultOf, ha, State.effect])
    · exact e.trans (by simp [State.faultOf, ha, Instr.opcode])
  case mul a b =>
    rcases execMul_cases s a b with ⟨ha, hb, e⟩ | ⟨ha, e⟩ | ⟨ha, hb, e⟩
    · exact e.trans (by simp [State.faultOf, ha, hb, State.effect])
    · exact e.trans (by simp [State.faultOf, ha, Instr.opcode])
    · exact e.trans (by simp [State.faultOf, ha, hb, Instr.opcode])
  case add a b =>
    rcases execAdd_cases s a b with ⟨ha, hb, e⟩ | ⟨ha, e⟩ | ⟨ha, hb, e⟩
    · exact e.trans (by simp [State.faultOf, ha, hb, State.effect])
    · exact e.trans (by simp [State.faultOf, ha, Instr.opcode])
    · exact e.trans (by simp [State.faultOf, ha, hb, Instr.opcode])
  case push a =>
    rcases execPush_cases s a with ⟨ha, hsp, hN, e⟩ | ⟨ha, e⟩ | ⟨ha, hsp, e⟩ | ⟨ha, hsp, hN, e⟩
    · exact e.trans (by simp [State.faultOf, ha, pushFault_of_lt hsp hN, State.effect])
    · exact e.trans (by simp [State.faultOf, ha, Instr.opcode])
    · exact e.trans (by simp [State.faultOf, ha, pushFault_of_zero hsp, Instr.opcode])
    · exact e.trans (by simp [State.faultOf, ha, pushFault_of_ge hsp hN, Instr.opcode])
  case pop a =>
    rcases execPop_cases s a with ⟨ha, hsp, hN, e⟩ | ⟨ha, e⟩ | ⟨ha, hsp, e⟩ | ⟨ha, hsp, hN, e⟩
    · exact e.trans (by simp [State.faultOf, ha, popFault_of_lt hsp hN, State.effect])
    · exact e.trans (by simp [State.faultOf, ha, Instr.opcode])
    · exact e.trans (by simp [State.faultOf, ha, popFault_of_empty hsp, Instr.opcode])
    · exact e.trans (by simp [State.faultOf, ha, popFault_of_ge hsp hN, Instr.opcode])
  case call a =>
    rcases execCall_cases s a with ⟨ha, hsp, hN, e⟩ | ⟨ha, e⟩ | ⟨ha, hsp, e⟩ | ⟨ha, hsp, hN, e⟩
    · exact e.trans (by simp [State.faultOf, ha, pushFault_of_lt hsp hN, State.effect])
    · exact e.trans (by simp [State.faultOf, ha, Instr.opcode])
    · exact e.trans (by simp [State.faultOf, ha, pushFault_of_zero hsp, Instr.opcode])
    · exact e.trans (by simp [State.faultOf, ha, pushFault_of_ge hsp hN, Instr.opcode])
  case ret =>
    rcases execRet_cases s with ⟨hsp, hN, e⟩ | ⟨hsp, e⟩ | ⟨hsp, hN, e⟩
    · exact e.trans (by simp [State.faultOf, popFault_of_lt hsp hN, State.effect])
    · exact e.trans (by simp [State.faultOf, popFault_of_empty hsp, Instr.opcode])
    · exact e.trans (by simp [State.faultOf, popFault_of_ge hsp hN, Instr.opcode])
  case cmp a b =>
    rcases execCmp_cases s a b with ⟨ha, hb, e⟩ | ⟨ha, e⟩ | ⟨ha, hb, e⟩
    · exact e.trans (by simp [State.faultOf, ha, hb, State.effect])
    · exact e.trans (by simp [State.faultOf, ha, Instr.opcode])
    · exact e.trans (by simp [State.faultOf, ha, hb, Instr.opcode])
  case jmp a =>
    rcases execJmp_cases s a with ⟨ha, e⟩ | ⟨ha, e⟩
    · exact e.trans (by simp [State.faultOf, ha, State.effect])
    · exact e.trans (by simp [State.faultOf, ha, Instr.opcode])
  case jeq a =>
    rcases execJeq_cases s a with ⟨hf, e⟩ | ⟨hf, ha, e⟩ | ⟨hf, ha, e⟩
    · exact e.trans (by simp [State.faultOf, hf, State.effect])
    · exact e.trans (by simp [State.faultOf, hf, ha, State.effect])
    · exact e.trans (by simp [State.faultOf, hf, ha, Instr.opcode])
  case jne a =>
    rcases execJne_cases s a with ⟨hf, e⟩ | ⟨hf, ha, e⟩ | ⟨hf, ha, e⟩
    · exact e.trans (by simp [State.faultOf, hf, State.effect])
    · exact e.trans (by simp [State.faultOf, hf, ha, State.effect])
    · exact e.trans (by simp [State.faultOf, hf, ha, Instr.opcode])
  case halt => exact execHalt_eq s

theorem exec_of_fault {s : State} {i : Instr} {c : FaultCause} (h : s.faultOf i = some c) :
    exec i s = .next (s.takeFault c (some i.opcode)) := by
  rw [exec_eq, h, Option.elim_some]

theorem exec_of_no_fault {s : State} {i : Instr} (h : s.faultOf i = none) : exec i s = .next (s.effect i) := by
  rw [exec_eq, h, Option.elim_none]

/-- The two ways an instruction can answer a state. -/
theorem exec_next {s t : State} {i : Instr} (h : exec i s = .next t) :
    (∃ c, s.faultOf i = some c ∧ t = s.takeFault c (some i.opcode)) ∨ (s.faultOf i = none ∧ t = s.effect i) := by
  cases hf : s.faultOf i with
  | some c =>
    rw [exec_of_fault hf] at h
    cases h
    exact .inl ⟨c, rfl, rfl⟩
  | none =>
    rw [exec_of_no_fault hf] at h
    cases h
    exact .inr ⟨rfl, rfl⟩

end Sys2Proof.Machine
end

section
/-!
The faults of the handlers (spec/60_exceptions.md sections 1 and 2), read off the checks of `State.faultOf`.
-/

namespace Sys2Proof.Machine

/-! ### Which check a fault comes from -/

theorem registerFault_eq_some {k : Byte} {c : FaultCause} (h : registerFault k = some c) :
    8 ≤ k.toNat ∧ c = .invalidRegister k := by
  rw [registerFault, Option.ite_none_right_eq_some] at h
  exact h.imp_right fun h => (Option.some.inj h).symm

theorem pushFault_eq_some {s : State} {c : FaultCause} (h : pushFault s = some c) :
    c = .stackOverflow 0 ∨ (s.cfg.N ≤ s.pushAddr ∧ c = .addressOutOfRange s.pushAddr) := by
  unfold pushFault at h
  split_ifs at h with hsp hN
  · exact .inl (Option.some.inj h).symm
  · exact .inr ⟨hN, (Option.some.inj h).symm⟩

theorem popFault_eq_some {s : State} {c : FaultCause} (h : popFault s = some c) :
    c = .stackUnderflow s.sp ∨ (s.cfg.N ≤ s.sp.toNat ∧ c = .addressOutOfRange s.sp.toNat) := by
  unfold popFault at h
  split_ifs at h with hsp hN
  · exact .inl (Option.some.inj h).symm
  · exact .inr ⟨hN, (Option.some.inj h).symm⟩

end Sys2Proof.Machine

namespace Sys2Proof

/-- The operand bytes that name a register (spec/30_encoding.md R193, R194). -/
def Instr.registerOperands : Instr → List Byte
  | .ldi a _ => [a]
  | .prn a => [a]
  | .mul a b => [a, b]
  | .add a b => [a, b]
  | .push a => [a]
  | .pop a => [a]
  | .call a => [a]
  | .ret => []
  | .cmp a b => [a, b]
  | .jmp a => [a]
  | .jeq a => [a]
  | .jne a => [a]
  | .halt => []

theorem wellFormed_iff {i : Instr} : WellFormed i = true ↔ ∀ k ∈ i.registerOperands, k.toNat < 8 := by
  cases i <;> simp [WellFormed, isRegister, Instr.registerOperands]

theorem Instr.invalidRegister_mem_mayRaise {i : Instr} {k : Byte} (h : k ∈ i.registerOperands) :
    .invalidRegister ∈ i.mayRaise := by
  cases i <;> simp_all [Instr.registerOperands, Instr.mayRaise]

end Sys2Proof

namespace Sys2Proof.Machine

/-- An instruction stores through a push. -/
def Pushes (i : Instr) : Prop := ∃ a, i = .push a ∨ i = .call a

/-- An instruction loads through a pop. -/
def Pops (i : Instr) : Prop := i = .ret ∨ ∃ a, i = .pop a

/-- A fault of an instruction comes from a register operand it has, or from the stack checks where it uses the stack. -/
theorem State.faultOf_eq_some {s : State} {i : Instr} {c : FaultCause} (h : s.faultOf i = some c) :
    (∃ k ∈ i.registerOperands, 8 ≤ k.toNat ∧ c = .invalidRegister k) ∨ (Pushes i ∧ pushFault s = some c) ∨
      (Pops i ∧ popFault s = some c) := by
  have register : ∀ k ∈ i.registerOperands, registerFault k = some c →
      ∃ k ∈ i.registerOperands, 8 ≤ k.toNat ∧ c = .invalidRegister k := fun k hk hc =>
    ⟨k, hk, registerFault_eq_some hc⟩
  cases i
  case ldi a _ | prn a | jmp a => exact .inl (register a (List.mem_cons_self ..) h)
  case mul a b | add a b | cmp a b =>
    rcases Option.or_eq_some_iff.1 h with ha | ⟨_, hb⟩
    · exact .inl (register a (List.mem_cons_self ..) ha)
    · exact .inl (register b (List.mem_cons_of_mem _ (List.mem_cons_self ..)) hb)
  case push a | call a =>
    rcases Option.or_eq_some_iff.1 h with ha | ⟨_, hpush⟩
    · exact .inl (register a (List.mem_cons_self ..) ha)
    · exact .inr (.inl ⟨⟨a, by simp⟩, hpush⟩)
  case pop a =>
    rcases Option.or_eq_some_iff.1 h with ha | ⟨_, hpop⟩
    · exact .inl (register a (List.mem_cons_self ..) ha)
    · exact .inr (.inr ⟨.inr ⟨a, rfl⟩, hpop⟩)
  case ret => exact .inr (.inr ⟨.inl rfl, h⟩)
  case jeq a =>
    exact .inl (register a (List.mem_cons_self ..) (Option.ite_none_right_eq_some.1 h).2)
  case jne a =>
    exact .inl (register a (List.mem_cons_self ..) (Option.ite_none_left_eq_some.1 h).2)
  case halt => cases h

theorem Pushes.mayRaise {i : Instr} (h : Pushes i) :
    .stackOverflow ∈ i.mayRaise ∧ .addressOutOfRange ∈ i.mayRaise := by
  obtain ⟨a, rfl | rfl⟩ := h <;> simp [Instr.mayRaise]

theorem Pops.mayRaise {i : Instr} (h : Pops i) : .stackUnderflow ∈ i.mayRaise ∧ .addressOutOfRange ∈ i.mayRaise := by
  obtain rfl | ⟨a, rfl⟩ := h <;> simp [Instr.mayRaise]

/-- The causes of a fault: an operand that names no register, or a stack check of an instruction that may raise it. An
address that is reported is a byte at N or above, so there is none where N = 256. -/
theorem State.cause_of_faultOf {s : State} {i : Instr} {c : FaultCause} (h : s.faultOf i = some c) :
    (∃ k ∈ i.registerOperands, 8 ≤ k.toNat ∧ c = .invalidRegister k) ∨
      (c.kind ∈ i.mayRaise ∧ c.kind ≠ .invalidRegister ∧ (c.kind = .addressOutOfRange → s.cfg.N < 256)) := by
  have hsp : s.sp.toNat < 256 := s.sp.isLt
  have haddr : s.pushAddr < 256 := (Nat.sub_le _ _).trans_lt hsp
  rcases State.faultOf_eq_some h with hreg | ⟨hi, hpush⟩ | ⟨hi, hpop⟩
  · exact .inl hreg
  · obtain ⟨hoverflow, hrange⟩ := hi.mayRaise
    rcases pushFault_eq_some hpush with rfl | ⟨hN, rfl⟩
    · exact .inr ⟨hoverflow, nofun, nofun⟩
    · exact .inr ⟨hrange, nofun, fun _ => hN.trans_lt haddr⟩
  · obtain ⟨hunderflow, hrange⟩ := hi.mayRaise
    rcases popFault_eq_some hpop with rfl | ⟨hN, rfl⟩
    · exact .inr ⟨hunderflow, nofun, nofun⟩
    · exact .inr ⟨hrange, nofun, fun _ => hN.trans_lt hsp⟩

theorem State.effect_fr (s : State) (i : Instr) : (s.effect i).fr = s.fr := by cases i <;> rfl

/-- A record that an instruction leaves where there was none is of the fault it raised. -/
theorem exec_fr_eq_some {s t : State} {i : Instr} {r : FaultRecord} (h : exec i s = .next t) (hs : s.fr = none)
    (ht : t.fr = some r) : s.faultOf i = some r.cause := by
  rcases exec_next h with ⟨c, hc, rfl⟩ | ⟨_, rfl⟩
  · rw [State.takeFault_fr, Option.some.injEq] at ht
    rw [hc, ← ht]
  · rw [State.effect_fr, hs] at ht
    cases ht

/-- Settles O27: a bad register operand is listed for every instruction that has one, and the stack checks for those
that use the stack. -/
theorem onlyListedFaultsRaised : Obligations.OnlyListedFaultsRaised := by
  unfold Obligations.OnlyListedFaultsRaised
  intro i s t r hexec hs ht
  rcases State.cause_of_faultOf (exec_fr_eq_some hexec hs ht) with ⟨k, hk, _, hc⟩ | ⟨hmay, _, hrange⟩
  · have hkind : r.kind = .invalidRegister := by rw [FaultRecord.kind, hc, FaultCause.kind]
    rw [hkind]
    exact ⟨Instr.invalidRegister_mem_mayRaise hk, fun _ => by decide⟩
  · exact ⟨hmay, fun hN hkind => absurd (hrange hkind) (by omega)⟩

/-- Settles O28: InvalidRegister comes from a register operand of 8 or above, and a well-formed instruction has none. -/
theorem wellFormedNeverInvalidRegister : Obligations.WellFormedNeverInvalidRegister := by
  unfold Obligations.WellFormedNeverInvalidRegister
  intro i s t r hwf hexec hs ht
  rcases State.cause_of_faultOf (exec_fr_eq_some hexec hs ht) with ⟨k, hk, hge, _⟩ | ⟨_, hne, _⟩
  · have hlt := wellFormed_iff.1 hwf k hk
    omega
  · exact hne

/-! ### The order of the checks -/

/-- Settles O25: the register check of `a` stands first in every form, that of `b` second in those that have it. -/
theorem registerOperandsTestedFirst : Obligations.RegisterOperandsTestedFirst := by
  unfold Obligations.RegisterOperandsTestedFirst
  refine fun a b s => ⟨fun ha i hi => exec_of_fault ?_, fun ha hb i hi => exec_of_fault ?_⟩
  · simp only [List.mem_cons, List.not_mem_nil, or_false] at hi
    rcases hi with rfl | rfl | rfl | rfl | rfl | rfl | rfl | rfl | rfl <;> simp [State.faultOf, ha]
  · simp only [List.mem_cons, List.not_mem_nil, or_false] at hi
    rcases hi with rfl | rfl | rfl <;> simp [State.faultOf, ha, hb]

/-- Settles O26: past the register operand, PUSH and CALL have the checks of a push, POP and RET those of a pop. -/
theorem stackChecksFault : Obligations.StackChecksFault := by
  unfold Obligations.StackChecksFault
  intro a s ha
  have push : ∀ i ∈ [Instr.push a, .call a], s.faultOf i = pushFault s := by simp [State.faultOf, ha]
  have pop : ∀ i ∈ [Instr.pop a, .ret], s.faultOf i = popFault s := by simp [State.faultOf, ha]
  exact ⟨fun hsp i hi => exec_of_fault ((push i hi).trans (pushFault_of_zero hsp)),
    fun hsp hN i hi => exec_of_fault ((push i hi).trans (pushFault_of_ge hsp hN)),
    fun hsp i hi => exec_of_fault ((pop i hi).trans (popFault_of_empty hsp)),
    fun hsp hN i hi => exec_of_fault ((pop i hi).trans (popFault_of_ge hsp hN))⟩

end Sys2Proof.Machine
end

section
/-!
The completions of the instructions (spec/42_arithmetic.md to spec/46_jump.md): MUL, ADD and CMP, PUSH, POP, CALL and
RET, JEQ and JNE.
-/

namespace Sys2Proof.Machine

/-! ### Arithmetic and comparison -/

/-- Settles O14: the first case of `execMul_cases`, the two others having a bad register. -/
theorem mulWritesLowByteOfProduct : Obligations.MulWritesLowByteOfProduct := by
  unfold Obligations.MulWritesLowByteOfProduct
  intro a b s ha hb
  rcases execMul_cases s a b with ⟨_, _, e⟩ | ⟨hge, _⟩ | ⟨_, hge, _⟩
  · exact ⟨_, BitVec.toNat_ofNat _ _, e⟩
  · omega
  · omega

/-- Settles O15: the first case of `execAdd_cases`; the sum is a byte already when it is written. -/
theorem addWritesSumModulo256 : Obligations.AddWritesSumModulo256 := by
  unfold Obligations.AddWritesSumModulo256
  intro a b s ha hb
  rcases execAdd_cases s a b with ⟨_, _, e⟩ | ⟨hge, _⟩ | ⟨_, hge, _⟩
  · rw [State.setReg, Byte.ofNat_toNat] at e
    exact ⟨_, BitVec.toNat_ofNat _ _, rfl, e⟩
  · omega
  · omega

/-- Settles O20: the first case of `execCmp_cases`; equal as numbers is equal as bytes. -/
theorem cmpSetsFlags : Obligations.CmpSetsFlags := by
  unfold Obligations.CmpSetsFlags
  intro a b s ha hb
  rcases execCmp_cases s a b with ⟨_, _, e⟩ | ⟨hge, _⟩ | ⟨_, hge, _⟩
  · simp only [State.setFlag, compare, BitVec.toNat_inj] at e
    exact e
  · omega
  · omega

/-! ### The stack pointer -/

/-- A push does not begin with SP = 0, so its decrement does not wrap. -/
theorem State.toNat_sp_sub_one {s : State} (h : s.x[7] ≠ 0) : (s.x[7] - 1).toNat = s.x[7].toNat - 1 := by
  have hpos : s.x[7].toNat ≠ 0 := fun h0 => h (BitVec.eq_of_toNat_eq h0)
  bv_omega

theorem State.ofNat_pushAddr {s : State} (h : s.x[7] ≠ 0) : Byte.ofNat s.pushAddr = s.x[7] - 1 := by
  rw [State.pushAddr, State.sp_eq, ← State.toNat_sp_sub_one h, Byte.ofNat_toNat]

theorem Byte.ofNat_toNat_add_one (v : Byte) : Byte.ofNat (v.toNat + 1) = v + 1 := by
  bv_omega

/-- What a push leaves, with the decremented SP as a byte. -/
theorem State.pushed_eq {s : State} (h : s.x[7] ≠ 0) (v : Byte) :
    s.pushed v = { s with x := s.x.set 7 (s.x[7] - 1), mem := s.mem.put (s.x[7].toNat - 1) v } := by
  rw [State.pushed, State.setReg, State.ofNat_pushAddr h]
  rfl

/-- A register read after SP was decremented (decision D12). -/
theorem State.reg_claimed {s : State} (h : s.x[7] ≠ 0) {a : Byte} (ha : a.toNat < 8) :
    (s.setReg spIndex s.pushAddr).reg ⟨a.toNat, ha⟩ = if a = 7 then s.x[7] - 1 else s.x[a.toNat] := by
  have hindex : spIndex = ⟨a.toNat, ha⟩ ↔ a = 7 := by
    rw [Fin.ext_iff, ← BitVec.toNat_inj]
    exact eq_comm
  simp only [State.reg_setReg, hindex, State.ofNat_pushAddr h]
  rfl

theorem State.releaseSlot_eq (s : State) : s.releaseSlot = { s with x := s.x.set 7 (s.x[7] + 1) } := by
  rw [State.releaseSlot, State.setReg, State.sp_eq, Byte.ofNat_toNat_add_one]
  rfl

/-- The register write of a pop and the increment of SP after it (decision D12). -/
theorem State.releaseSlot_setReg (s : State) {a : Byte} (ha : a.toNat < 8) (v : Byte) :
    (s.setReg ⟨a.toNat, ha⟩ v.toNat).releaseSlot = { s with
      x := if a = 7 then s.x.set 7 (v + 1) else (s.x.set a.toNat v ha).set 7 (s.x[7] + 1) } := by
  rw [State.releaseSlot_eq, State.setReg, Byte.ofNat_toNat]
  split
  case isTrue h7 =>
    subst h7
    simp
  case isFalse h7 =>
    have hne : a.toNat ≠ 7 := fun h => h7 (BitVec.eq_of_toNat_eq h)
    simp [hne]

/-! ### PUSH, POP, CALL and RET -/

/-- Settles O16: past its checks a PUSH leaves what `pushed_eq` says, the register read by `reg_claimed`. -/
theorem pushStoresAtDecrementedSp : Obligations.PushStoresAtDecrementedSp := by
  unfold Obligations.PushStoresAtDecrementedSp
  intro a s ha hsp hN
  rw [exec_of_no_fault (by simp [State.faultOf, ha, pushFault_of_lt hsp hN]), State.effect, s.pushed_eq hsp,
    State.regAt_of_lt _ ha, State.reg_claimed hsp ha]

/-- Settles O18: the return address is narrowed to a byte, which it is where the fetch completed. -/
theorem callPushesReturnAddress : Obligations.CallPushesReturnAddress := by
  unfold Obligations.CallPushesReturnAddress
  intro a s ha hsp hN
  have htop := N_le s.cfg
  refine ⟨returnAddress s, fun hfits => ?_, ?_⟩
  · rw [returnAddress, Byte.ofNat, BitVec.toNat_ofNat]
    omega
  · rw [exec_of_no_fault (by simp [State.faultOf, ha, pushFault_of_lt hsp hN]), State.effect, s.pushed_eq hsp,
      State.regAt_of_lt _ ha, State.reg_claimed hsp ha, apply_ite BitVec.toNat,
      State.toNat_sp_sub_one hsp]

/-- Settles O17: past its checks a POP leaves what `releaseSlot_setReg` says. -/
theorem popLoadsFromSp : Obligations.PopLoadsFromSp := by
  unfold Obligations.PopLoadsFromSp
  intro a s ha hsp hN
  rw [exec_of_no_fault (by simp [State.faultOf, ha, popFault_of_lt hsp hN]), State.effect, s.setRegAt_of_lt ha,
    s.releaseSlot_setReg ha]
  rfl

/-- Settles O19: past its checks a RET takes the byte at SP and leaves what `releaseSlot_eq` says. -/
theorem retPopsItsTarget : Obligations.RetPopsItsTarget := by
  unfold Obligations.RetPopsItsTarget
  intro s hsp hN
  rw [exec_of_no_fault (i := .ret) (popFault_of_lt hsp hN), State.effect, s.releaseSlot_eq]
  rfl

/-! ### JEQ and JNE -/

/-- Settles O22: the check and the effect of JEQ, by whether the flags are Equal. -/
theorem jeqJumpsOnEqual : Obligations.JeqJumpsOnEqual := by
  unfold Obligations.JeqJumpsOnEqual
  refine fun a s => ⟨fun hf ha => ?_, fun hf ha => ?_, fun hf => ?_⟩
  · rw [exec_of_no_fault (by simp [State.faultOf, ha]), State.effect, if_pos hf, s.regAt_of_lt ha]
    rfl
  · exact exec_of_fault (by simp [State.faultOf, hf, ha])
  · rw [exec_of_no_fault (by simp [State.faultOf, hf]), State.effect, if_neg hf]

/-- Settles O23: the check and the effect of JNE, by whether the flags are Equal. -/
theorem jneJumpsOnNotEqual : Obligations.JneJumpsOnNotEqual := by
  unfold Obligations.JneJumpsOnNotEqual
  refine fun a s => ⟨fun hf ha => ?_, fun hf ha => ?_, fun hf => ?_⟩
  · rw [exec_of_no_fault (by simp [State.faultOf, ha]), State.effect, if_neg hf, s.regAt_of_lt ha]
    rfl
  · exact exec_of_fault (by simp [State.faultOf, hf, ha])
  · rw [exec_of_no_fault (by simp [State.faultOf, hf]), State.effect, if_pos hf]

end Sys2Proof.Machine
end

section
/-!
The frames of every instruction (spec/10_state.md sections 1 to 5, spec/20_memory.md section 2): a fault writes none of
the fields, and the effect is read field by field.
-/

namespace Sys2Proof.Machine

/-! ### Faulted only by a fault -/

theorem State.effect_es_ne_faulted {s : State} (h : s.es ≠ .faulted) (i : Instr) : (s.effect i).es ≠ .faulted := by
  cases i
  case halt => simp [State.effect]
  all_goals exact h

theorem exec_reaches_faulted {s t : State} {i : Instr} (h : exec i s = .next t) (hs : s.es ≠ .faulted)
    (ht : t.es = .faulted) : ∃ c, t = s.takeFault c (some i.opcode) := by
  rcases exec_next h with ⟨c, -, rfl⟩ | ⟨-, rfl⟩
  · exact ⟨c, rfl⟩
  · exact absurd ht (State.effect_es_ne_faulted hs i)

/-! ### Registers, flags, memory and output -/

theorem State.setReg_x_of_ne (s : State) {i r : Fin 8} (h : i ≠ r) (v : Nat) : (s.setReg i v).x[r] = s.x[r] :=
  s.reg_setReg_ne h v

/-- Settles O42: each register write of an effect is of a listed register. -/
theorem registerFrame : Obligations.RegisterFrame := by
  unfold Obligations.RegisterFrame
  intro i s t hexec r hr
  rcases exec_next hexec with ⟨c, -, rfl⟩ | ⟨-, rfl⟩
  · rfl
  have sp : (7 : Byte).toNat ≠ r.val → spIndex ≠ r := fun h heq => h (heq ▸ rfl)
  cases i
  case ldi a _ | mul a _ | add a _ => exact s.setRegAt_x_of_ne (hr a (by simp)) _
  case push | call | ret => exact s.setReg_x_of_ne (sp (hr 7 (by simp))) _
  case pop a =>
    exact (State.setReg_x_of_ne _ (sp (hr 7 (by simp))) _).trans (s.setRegAt_x_of_ne (hr a (by simp)) _)
  all_goals rfl

/-- Settles O43: the effect of CMP alone writes the flags. -/
theorem flagFrame : Obligations.FlagFrame := by
  unfold Obligations.FlagFrame
  refine fun i s t hexec => ⟨fun hcmp => ?_, fun hs ht => ?_⟩
  · rcases exec_next hexec with ⟨c, -, rfl⟩ | ⟨-, rfl⟩
    · rfl
    cases i
    case cmp a b => exact absurd rfl (hcmp a b)
    all_goals rfl
  · obtain ⟨c, rfl⟩ := exec_reaches_faulted hexec hs ht
    rfl

/-- Settles O44: the effects of PUSH and CALL alone write memory, by one `put` at `pushAddr`. -/
theorem memoryFrame : Obligations.MemoryFrame := by
  unfold Obligations.MemoryFrame
  refine fun i s t hwf hexec => ⟨?_, fun hs ht => ?_⟩
  · rcases exec_next hexec with ⟨c, -, rfl⟩ | ⟨-, rfl⟩
    · cases i
      case push | call => exact fun _ _ => rfl
      all_goals exact fun _ => rfl
    cases i
    case push | call => exact fun addr haddr => Memory.read_put_ne hwf haddr _
    all_goals exact fun _ => rfl
  · obtain ⟨c, rfl⟩ := exec_reaches_faulted hexec hs ht
    exact fun _ => rfl

theorem State.effect_out_of_ne_prn {s : State} {i : Instr} (h : ∀ a, i ≠ .prn a) : (s.effect i).out = s.out := by
  cases i
  case prn a => exact absurd rfl (h a)
  all_goals rfl

theorem exec_out_of_ne_prn {s t : State} {i : Instr} (h : ∀ a, i ≠ .prn a) (hexec : exec i s = .next t) :
    t.out = s.out := by
  rcases exec_next hexec with ⟨c, -, rfl⟩ | ⟨-, rfl⟩
  · rfl
  · exact State.effect_out_of_ne_prn h

/-- Settles O45: PRN is the two cases of its O13, every other instruction leaves the log. -/
theorem outputFrame : Obligations.OutputFrame := by
  unfold Obligations.OutputFrame
  intro i s t hexec
  cases i
  case prn a =>
    obtain ⟨_, _, hok, hbad⟩ := prnEmitsRegister a s
    by_cases ha : a.toNat < 8
    · rw [hok ha] at hexec
      cases hexec
      simp [ha]
    · obtain ⟨u, hu, _, _, hout, _⟩ := hbad (by omega)
      rw [hu] at hexec
      cases hexec
      simp [ha, hout]
  all_goals
    rw [List.append_nil]
    exact exec_out_of_ne_prn (by simp) hexec

/-! ### The next pc, and the flags as an input -/

/-- Settles O47: the pc each effect writes. -/
theorem nextPcOfEachInstruction : Obligations.NextPcOfEachInstruction := by
  unfold Obligations.NextPcOfEachInstruction
  intro i s t hexec ht
  rcases exec_next hexec with ⟨c, -, rfl⟩ | ⟨-, rfl⟩
  · exact absurd rfl ht
  · cases i <;> rfl

/-- The checks of an instruction do not look at the flags, but for those of JEQ and JNE. -/
theorem State.faultOf_setFlag {s : State} {i : Instr} (f : Flag) (hjeq : ∀ a, i ≠ .jeq a) (hjne : ∀ a, i ≠ .jne a) :
    (s.setFlag f).faultOf i = s.faultOf i := by
  cases i
  case jeq a => exact absurd rfl (hjeq a)
  case jne a => exact absurd rfl (hjne a)
  all_goals rfl

/-- The effect of an instruction does not look at the flags either, but for the flags it may keep. -/
theorem State.effect_setFlag {s : State} {i : Instr} (f : Flag) (hjeq : ∀ a, i ≠ .jeq a) (hjne : ∀ a, i ≠ .jne a) :
    ((s.setFlag f).effect i).setFlag (s.effect i).fl = s.effect i := by
  cases i
  case jeq a => exact absurd rfl (hjeq a)
  case jne a => exact absurd rfl (hjne a)
  all_goals rfl

/-- Settles O48: a fault is raised or not whatever the flags, and then both runs do the same but for them. -/
theorem flagsReadOnlyByConditionalJumps : Obligations.FlagsReadOnlyByConditionalJumps := by
  unfold Obligations.FlagsReadOnlyByConditionalJumps
  intro i s t f hjeq hjne hexec
  have hchecks : (s.setFlag f).faultOf i = s.faultOf i := State.faultOf_setFlag f hjeq hjne
  rcases exec_next hexec with ⟨c, hc, rfl⟩ | ⟨hnone, rfl⟩
  · exact ⟨_, exec_of_fault (hchecks.trans hc), rfl⟩
  · exact ⟨_, exec_of_no_fault (hchecks.trans hnone), State.effect_setFlag f hjeq hjne⟩

end Sys2Proof.Machine
end

section
/-!
The step (spec/40_engine_cycle.md): the stop check, the count, the fetch that fails, and the runs of many steps.
-/

namespace Sys2Proof.Machine

/-! ### One step -/

/-- Settles O34: a step from Running ends by `iterate_of_executesHalt` or `iterate_of_not_executesHalt`, and outside
Running nothing moves. -/
theorem everyStepAnswersNext : Obligations.EveryStepAnswersNext := by
  unfold Obligations.EveryStepAnswersNext
  intro s
  by_cases hrun : s.es = .running
  · rw [step_of_running hrun]
    by_cases hhalt : s.ExecutesHalt
    · obtain ⟨t, ht, _⟩ := iterate_of_executesHalt hhalt
      exact ⟨t, ht⟩
    · obtain ⟨t, ht, _⟩ := iterate_of_not_executesHalt hhalt
      exact ⟨t, ht⟩
  · exact ⟨s, step_of_not_running hrun⟩

theorem State.started_eq (s : State) : s.started = if s.cfg.stepBudget = none then s.tally else s.steps := by
  cases hk : s.cfg.stepBudget <;> simp [State.started, State.counting, hk]

/-- Settles O32: each of the two premises makes the stop check due. -/
theorem stopCheckComesFirst : Obligations.StopCheckComesFirst := by
  unfold Obligations.StopCheckComesFirst
  intro s hrun hdue
  have hstop : s.stopDue = true := by
    rcases hdue with ⟨hinput, hsignal⟩ | hbudget
    · simp [State.stopDue, hinput, hsignal]
    · simp [State.stopDue, hbudget]
  rw [step_of_running hrun, iterate_of_stopDue hstop, State.started_eq]
  rfl

/-- Settles O30: `fetch_of_past` names the address and the opcode of the record. -/
theorem fetchPastMemoryFaults : Obligations.FetchPastMemoryFaults := by
  unfold Obligations.FetchPastMemoryFaults
  intro s hrun hstop hpast
  rw [step_of_running hrun]
  exact iterate_of_fetch_error hstop (fetch_of_past hpast)

/-- The count, with what counts written out. -/
theorem State.countStep_eq (s : State) : s.countStep = { s with
    steps := if s.cfg.stepBudget ≠ none ∧ s.es ≠ .faulted then s.steps + 1 else s.steps
    tally := if (s.cfg.stopInput = true ∧ s.cfg.stepBudget = none) ∧ s.es ≠ .faulted then s.tally + 1
      else s.tally } := by
  by_cases hes : s.es = .faulted
  · rw [State.countStep_of_faulted hes, if_neg (by simp [hes]), if_neg (by simp [hes])]
  · simp [State.countStep_of_not_faulted hes, hes, State.counting, State.tallying, Option.isSome_iff_ne_none]

/-- Settles O29: the iteration is the instruction and the count, of counters that the instruction itself kept. -/
theorem stepRunsDecodedInstruction : Obligations.StepRunsDecodedInstruction := by
  unfold Obligations.StepRunsDecodedInstruction
  refine fun s i hrun hstop hfits hdecode =>
    ⟨?_, fun hbudget hinput => State.Unbounded.step_eq_exec ⟨hrun, hbudget, hinput⟩ hfits hdecode⟩
  obtain ⟨t, hexec, _⟩ := exec_commits_or_faults s i
  obtain ⟨hcfg, hsteps, htally, _⟩ := controlStateFrame i s t hexec
  refine ⟨t, hexec, ?_⟩
  rw [step_of_running hrun, iterate_of_decode_ok hstop (fetch_of_fits hfits) hdecode, hexec, counted_next,
    State.countStep_eq, hcfg, hsteps, htally]

/-! ### Precise faults -/

/-- The opcode in the record of a fault: none where the stop check or the first read of the fetch raised it (R136). -/
def State.recordedOpcode (s : State) : Option Byte :=
  if s.stopDue ∨ s.cfg.N ≤ s.pc then none else some (s.mem.read s.pc)

theorem State.recordedOpcode_of_stopDue {s : State} (h : s.stopDue = true) : s.recordedOpcode = none := by
  simp [State.recordedOpcode, h]

theorem State.recordedOpcode_of_not_stopDue {s : State} (h : s.stopDue = false) :
    s.recordedOpcode = if s.cfg.N ≤ s.pc then none else some (s.mem.read s.pc) := by
  simp [State.recordedOpcode, h]

theorem State.recordedOpcode_of_fits {s : State} (h : s.stopDue = false) (hfits : s.pc + 2 < s.cfg.N) :
    s.recordedOpcode = some (s.mem.read s.pc) := by
  rw [State.recordedOpcode_of_not_stopDue h, if_neg (by omega)]

/-- An iteration that faults takes one fault, and its record holds the opcode if it was fetched. -/
theorem iterate_reaches_faulted {s t : State} (hrun : s.es = .running) (h : iterate s = .next t)
    (ht : t.es = .faulted) : ∃ c, t = s.takeFault c s.recordedOpcode := by
  rcases iterate_cases s with
    ⟨hstop, hiter⟩ | ⟨hstop, hpast, e, he, hiter⟩ | ⟨hstop, hfits, _, hiter⟩ | ⟨hstop, hfits, i, hdecode, hiter⟩
  · rw [State.recordedOpcode_of_stopDue hstop]
    rw [hiter] at h
    cases h
    exact ⟨_, rfl⟩
  · rw [State.recordedOpcode_of_not_stopDue hstop]
    rw [fetch_of_past hpast] at he
    rw [hiter] at h
    cases h
    cases he
    exact ⟨_, rfl⟩
  · rw [State.recordedOpcode_of_fits hstop hfits]
    rw [hiter] at h
    cases h
    exact ⟨_, rfl⟩
  · rw [State.recordedOpcode_of_fits hstop hfits, ← opcode_of_decode hdecode]
    obtain ⟨u, hexec, _⟩ := exec_commits_or_faults s i
    rw [hiter, hexec, counted_next] at h
    cases h
    rw [State.countStep_es] at ht
    obtain ⟨c, rfl⟩ := exec_reaches_faulted hexec (by simp [hrun]) ht
    exact ⟨c, State.countStep_of_faulted ht⟩

/-- Settles O33: the taken fault writes the engine state and the record, and nothing counts it. -/
theorem faultingStepIsPrecise : Obligations.FaultingStepIsPrecise := by
  unfold Obligations.FaultingStepIsPrecise
  intro s t hrun hstep ht
  rw [step_of_running hrun] at hstep
  exact iterate_reaches_faulted hrun hstep ht

/-! ### The engine-state machine -/

theorem State.es_load (s : State) (bytes : List Byte) (start : Nat) : (s.load bytes start).1.es = s.es := by
  unfold State.load
  split_ifs <;> rfl

/-- The engine has ended its run (R134). -/
def State.Ended (s : State) : Prop := s.es = .halted ∨ s.es = .faulted

theorem State.Ended.not_running {s : State} (h : s.Ended) : s.es ≠ .running := by
  rcases h with h | h <;> simp [h]

theorem step_running_or_ended {s t : State} (hrun : s.es = .running) (hstep : step s = .next t) :
    t.es = .running ∨ t.Ended := by
  rcases step_ends_of_running hrun hstep with ⟨_, hes⟩ | ⟨_, ⟨_, hes, _⟩ | hes⟩
  · exact .inr (.inl hes)
  · exact .inr (.inr hes)
  · exact .inl hes

/-- Halted is reached by executing HALT alone, whose opcode then stands at the pc. -/
theorem step_reaches_halted {s t : State} (hrun : s.es = .running) (hstep : step s = .next t) (ht : t.es = .halted) :
    s.mem.read s.pc = 0x01 := by
  rcases step_ends_of_running hrun hstep with ⟨⟨_, _, hdecode⟩, _⟩ | ⟨_, ⟨_, hes, _⟩ | hes⟩
  · exact (opcode_of_decode hdecode).symm
  · simp [hes] at ht
  · simp [hes] at ht

/-- Settles O36: the ends of a step, and of each transaction the engine state it writes. -/
theorem engineStateTransitions : Obligations.EngineStateTransitions := by
  unfold Obligations.EngineStateTransitions
  refine ⟨fun s t hstep => ⟨fun hrun => ?_, fun hrun => step_running_or_ended hrun hstep,
    fun hrun => step_reaches_halted hrun hstep⟩, fun s act => ?_⟩
  · rw [step_of_not_running hrun] at hstep
    cases hstep
    rfl
  · cases act with
    | reset c => rfl
    | load bytes start => exact s.es_load bytes start
    | run => simp only [State.transact]; split_ifs <;> rfl
    | assertStop => simp only [State.transact]; split_ifs <;> rfl
    | readOutput => rfl
    | readFinal => simp only [State.transact]; split_ifs <;> rfl

/-! ### Runs of many steps -/

/-- A state that a step leaves as it is, any number of steps does. -/
theorem core_run_of_step_self {s : State} (h : step s = .next s) (n : Nat) :
    Host.Core.run Sys2Proof.core n s = .next s := by
  induction n with
  | zero => rfl
  | succ n ih => exact (core_run_succ n h).trans ih

/-- Settles O35: outside Running a step leaves the state as it is. -/
theorem nothingMovesOutsideRunning : Obligations.NothingMovesOutsideRunning := by
  unfold Obligations.NothingMovesOutsideRunning
  exact fun n s hrun => core_run_of_step_self (step_of_not_running hrun) n

theorem State.Unbounded.step_jmp {s : State} {a : Byte} (hs : s.Unbounded) (hfits : s.pc + 2 < s.cfg.N)
    (hcode : s.CodeAt [0x54, a]) (ha : a.toNat < 8) : step s = .next { s with pc := s.x[a.toNat].toNat } := by
  have hop : s.mem.read s.pc = 0x54 := hcode 0 (by simp)
  have harg : s.mem.read (s.pc + 1) = a := hcode 1 (by simp)
  obtain ⟨_, hdecode, hexec, _⟩ := jmpGoesToRegister a s
  rw [hs.step_eq_exec hfits (by rw [hop, harg, hdecode]), hexec ha]

/-- Settles O38: the jump to its own address leaves the state as it is. -/
theorem selfJumpNeverEnds : Obligations.SelfJumpNeverEnds := by
  unfold Obligations.SelfJumpNeverEnds
  intro n s a ha hs hfits hcode htarget
  have hstep := hs.step_jmp hfits hcode ha
  rw [htarget] at hstep
  exact core_run_of_step_self hstep n

/-- A step that leaves the engine Running took one iteration of the budget. -/
theorem step_counts_of_running {s t : State} {k : Nat} (hk : s.cfg.stepBudget = some k) (hrun : s.es = .running)
    (hstep : step s = .next t) (ht : t.es = .running) :
    s.steps ≠ k ∧ t.cfg.stepBudget = some k ∧ t.steps = s.steps + 1 := by
  rw [step_of_running hrun] at hstep
  rcases iterate_cases s with
    ⟨_, hiter⟩ | ⟨_, _, _, _, hiter⟩ | ⟨_, _, _, hiter⟩ | ⟨hstop, _, i, _, hiter⟩
  case inr.inr.inr =>
    obtain ⟨u, hexec, _⟩ := exec_commits_or_faults s i
    obtain ⟨hcfg, hsteps, _⟩ := controlStateFrame i s u hexec
    rw [hiter, hexec, counted_next] at hstep
    cases hstep
    rw [State.countStep_es] at ht
    refine ⟨s.steps_ne_of_not_stopDue hstop hk, by rw [State.countStep_cfg, hcfg, hk], ?_⟩
    simp [State.countStep_steps, State.counting, hcfg, hsteps, hk, ht]
  all_goals
    rw [hiter] at hstep
    cases hstep
    cases ht

theorem core_run_of_ended {s : State} (h : s.Ended) (n : Nat) :
    ∃ t, Host.Core.run Sys2Proof.core n s = .next t ∧ t.Ended :=
  ⟨s, nothingMovesOutsideRunning n s h.not_running, h⟩

/-- The iterations left of a budget, and one more for the stop check, end a run (decision D13): each step that leaves
the engine Running uses one up, and none is left for the last to do so. -/
theorem core_run_ends_of_budget {k n : Nat} {s : State} (hk : s.cfg.stepBudget = some k) (hn : k = s.steps + n)
    (hrun : s.es = .running) : ∃ t, Host.Core.run Sys2Proof.core (n + 1) s = .next t ∧ t.Ended := by
  induction n generalizing s with
  | zero =>
    obtain ⟨t, hstep⟩ := everyStepAnswersNext s
    rw [core_run_succ 0 hstep]
    rcases step_running_or_ended hrun hstep with ht | ht
    · obtain ⟨hne, _⟩ := step_counts_of_running hk hrun hstep ht
      exact absurd hn.symm hne
    · exact core_run_of_ended ht 0
  | succ n ih =>
    obtain ⟨t, hstep⟩ := everyStepAnswersNext s
    rw [core_run_succ (n + 1) hstep]
    rcases step_running_or_ended hrun hstep with ht | ht
    · obtain ⟨_, hk', hsteps⟩ := step_counts_of_running hk hrun hstep ht
      exact ih hk' (by omega) ht
    · exact core_run_of_ended ht (n + 1)

/-- Settles O37: from Running by `core_run_ends_of_budget`, and an engine that has ended stays so. -/
theorem budgetEndsEveryRun : Obligations.BudgetEndsEveryRun := by
  unfold Obligations.BudgetEndsEveryRun
  intro s k hk hs hidle
  cases hes : s.es with
  | idle => exact absurd hes hidle
  | running => exact core_run_ends_of_budget hk (by omega) hes
  | halted => exact core_run_of_ended (.inl hes) _
  | faulted => exact core_run_of_ended (.inr hes) _

end Sys2Proof.Machine
end

section
/-!
The properties of the source's tests (spec/43_stack.md, spec/44_subroutine.md, spec/20_memory.md section 5): a push undone
by a pop, a CALL undone by a RET, and a push of code.
-/

namespace Sys2Proof.Machine

/-! ### The stack pointer after a push -/

/-- A push that begins with SP at TOS or below leaves the stack not empty (decision D6). -/
theorem State.sp_sub_one_lt_tos {s : State} (h : s.x[7] ≠ 0) (htos : s.x[7] ≤ s.cfg.tos) :
    s.x[7] - 1 < s.cfg.tos := by
  have hdec := State.toNat_sp_sub_one h
  bv_omega

theorem Byte.ne_seven_of_lt {k : Byte} (h : k.toNat < 7) : k ≠ 7 := by
  rintro rfl
  exact absurd h (by decide)

/-! ### PUSH and POP, CALL and RET -/

/-- A PUSH of a register other than SP, by what a POP after it can see. -/
theorem exec_push_of_lt {s : State} {i : Byte} (hi : i.toNat < 7) (hwf : s.mem.wf) (hsp : s.x[7] ≠ 0)
    (hN : s.x[7].toNat - 1 < s.cfg.N) :
    ∃ t, exec (.push i) s = .next t ∧ t.cfg = s.cfg ∧ t.x[7] = s.x[7] - 1 ∧
      (∀ (k : Byte) (_ : k.toNat < 7), t.x[k.toNat] = s.x[k.toNat]) ∧
      t.mem.read t.x[7].toNat = s.x[i.toNat] := by
  have hpush := pushStoresAtDecrementedSp i s (by omega) hsp hN
  rw [if_neg (Byte.ne_seven_of_lt hi)] at hpush
  refine ⟨_, hpush, rfl, Vector.getElem_set_self _, fun k hk =>
    Vector.getElem_set_ne (by omega) _ (by omega), ?_⟩
  rw [Vector.getElem_set_self, State.toNat_sp_sub_one hsp, Memory.read_put_self hwf]

/-- A POP into a register other than SP, whose increment of SP leaves the popped byte. -/
theorem exec_pop_of_lt {s : State} {k : Byte} (hk : k.toNat < 7) (hsp : s.x[7] < s.cfg.tos)
    (hN : s.x[7].toNat < s.cfg.N) :
    ∃ t, exec (.pop k) s = .next t ∧ t.mem = s.mem ∧ t.x[7] = s.x[7] + 1 ∧
      t.x[k.toNat] = s.mem.read s.x[7].toNat ∧
      ∀ (j : Byte) (_ : j.toNat < 7), k ≠ j → t.x[j.toNat] = s.x[j.toNat] := by
  have hpop := popLoadsFromSp k s (by omega) hsp hN
  rw [if_neg (Byte.ne_seven_of_lt hk)] at hpop
  refine ⟨_, hpop, rfl, Vector.getElem_set_self _, ?_, fun j hj hne => ?_⟩
  · exact (Vector.getElem_set_ne (by omega) _ (by omega)).trans (Vector.getElem_set_self _)
  · have hindex : k.toNat ≠ j.toNat := fun h => hne (BitVec.eq_of_toNat_eq h)
    exact (Vector.getElem_set_ne (by omega) _ (by omega)).trans (Vector.getElem_set_ne _ _ hindex)

/-- Settles O50: the byte the POP reads at SP is the one the PUSH stored there. -/
theorem pushThenPopRestores : Obligations.PushThenPopRestores := by
  unfold Obligations.PushThenPopRestores
  intro s i k hi hk hwf hsp htos hN
  obtain ⟨t, hpush, hcfg, htsp, hkept, hread⟩ := exec_push_of_lt hi hwf hsp hN
  have hdec : t.x[7].toNat = s.x[7].toNat - 1 := by rw [htsp, State.toNat_sp_sub_one hsp]
  obtain ⟨u, hpop, hmem, husp, hpopped, hothers⟩ := exec_pop_of_lt (s := t) hk
    (by rw [htsp, hcfg]; exact State.sp_sub_one_lt_tos hsp htos) (by rw [hdec, hcfg]; exact hN)
  refine ⟨t, u, hpush, hpop, hpopped.trans hread, fun hne => (hothers i hi hne).trans (hkept i hi), ?_, ?_⟩
  · rw [husp, htsp, BitVec.sub_add_cancel]
  · rw [hmem, ← hdec, hread]

/-- Settles O51: the byte RET pops is the one CALL pushed, which is the return address (O18), and SP is balanced. -/
theorem callThenRetReturns : Obligations.CallThenRetReturns := by
  unfold Obligations.CallThenRetReturns
  intro s t u a ha hwf hsp htos hN hfits hcall hcfg hspu hread
  obtain ⟨returnTo, hreturn, hexec⟩ := callPushesReturnAddress a s ha hsp hN
  rw [hexec] at hcall
  cases hcall
  rw [Vector.getElem_set_self] at hspu hread
  rw [State.toNat_sp_sub_one hsp, Memory.read_put_self hwf] at hread
  have hret := retPopsItsTarget u (by rw [hspu, hcfg]; exact State.sp_sub_one_lt_tos hsp htos)
    (by rw [hspu, hcfg, State.toNat_sp_sub_one hsp]; exact hN)
  refine ⟨_, hret, ?_, ?_⟩
  · rw [hread]
    exact hreturn hfits
  · simp [hspu]

/-! ### Code that is pushed (spec/20_memory.md R176) -/

theorem core_run_one (s : State) : Host.Core.run Sys2Proof.core 1 s = step s := by
  obtain ⟨t, hstep⟩ := everyStepAnswersNext s
  exact (core_run_succ 0 hstep).trans hstep.symm

theorem State.Unbounded.step_of_decode_error {s : State} {e : DecodeError} (hs : s.Unbounded)
    (hfits : s.pc + 2 < s.cfg.N)
    (hd : decode (s.mem.read s.pc) (s.mem.read (s.pc + 1)) (s.mem.read (s.pc + 2)) = .error e) :
    step s = .next (s.takeFault (.invalidOpcode (s.mem.read s.pc)) (some (s.mem.read s.pc))) := by
  obtain ⟨_, rfl⟩ := decode_error hd
  rw [step_of_running hs.1]
  exact iterate_of_decode_error (State.not_stopDue_of_unbounded hs) (fetch_of_fits hfits) hd

theorem State.Unbounded.step_push {s : State} {a : Byte} (hs : s.Unbounded) (hfits : s.pc + 2 < s.cfg.N)
    (hcode : s.CodeAt [0x45, a]) : step s = exec (.push a) s := by
  have hop : s.mem.read s.pc = 0x45 := hcode 0 (by simp)
  have harg : s.mem.read (s.pc + 1) = a := hcode 1 (by simp)
  exact hs.step_eq_exec hfits (by rw [hop, harg]; rfl)

/-- A PUSH over the byte after itself, by what the fetch after it can see. -/
theorem exec_push_over_next {s : State} {a v : Byte} (ha : a.toNat < 8) (hwf : s.mem.wf) (hN : s.pc + 4 < s.cfg.N)
    (hsp : s.x[7].toNat = s.pc + 3) (hv : v = if a = 7 then s.x[7] - 1 else s.x[a.toNat]) :
    ∃ t, exec (.push a) s = .next t ∧ t.cfg = s.cfg ∧ t.es = s.es ∧ t.pc = s.pc + 2 ∧ t.mem.read t.pc = v ∧
      t.mem.read (t.pc + 1) = s.mem.read (s.pc + 3) ∧ t.mem.read (t.pc + 2) = s.mem.read (s.pc + 4) := by
  have hne : s.x[7] ≠ 0 := by
    intro h0
    rw [h0] at hsp
    cases hsp
  have haddr : s.x[7].toNat - 1 = s.pc + 2 := by omega
  have hpush := pushStoresAtDecrementedSp a s ha hne (by omega)
  rw [← hv, haddr] at hpush
  exact ⟨_, hpush, rfl, rfl, rfl, Memory.read_put_self hwf _ v,
    Memory.read_put_ne hwf (b := s.pc + 3) (by omega) v, Memory.read_put_ne hwf (b := s.pc + 4) (by omega) v⟩

/-- Settles O52: the PUSH stores the byte at the pc it leaves, so the next fetch reads it there, and the two bytes after
it as they were. -/
theorem pushedCodeRunsNext : Obligations.PushedCodeRunsNext := by
  unfold Obligations.PushedCodeRunsNext
  intro s a v ha hs hwf hcode hN hsp hv
  obtain ⟨t, hpush, hcfg, hes, hpc, hself, hnext, hlast⟩ := exec_push_over_next ha hwf hN hsp hv
  have ht : t.Unbounded := by simpa [State.Unbounded, hes, hcfg] using hs
  have hfits : t.pc + 2 < t.cfg.N := by rw [hpc, hcfg]; exact hN
  have hstep : step s = .next t := (hs.step_push (by omega) hcode).trans hpush
  refine ⟨t, hpush, hstep, hpc, hpc ▸ hself, ?_⟩
  rw [core_run_succ 1 hstep, core_run_one, ← hself, ← hnext, ← hlast, ← hpc]
  split
  case h_1 i hdecode => exact ht.step_eq_exec hfits hdecode
  case h_2 e hdecode => exact ht.step_of_decode_error hfits hdecode

end Sys2Proof.Machine
end

section
/-!
The host interface (spec/70_reset_and_hazards.md sections 1 and 2): what each transaction does, and refuses to do.
-/

namespace Sys2Proof.Machine

/-- Settles O53: what reset leaves is the construction, every register and every byte of which is 0. -/
theorem resetLeavesZeros : Obligations.ResetLeavesZeros := by
  unfold Obligations.ResetLeavesZeros
  refine fun s c => ⟨State.construct c, rfl, rfl, fun r => ?_, fun addr haddr => ?_, rfl, rfl, rfl, rfl, rfl, rfl⟩
  · simp
  · exact memRead_of_lt haddr

theorem State.load_of_not_idle {s : State} (h : s.es ≠ .idle) (bytes : List Byte) (start : Nat) :
    s.load bytes start = (s, .notAllowed) := if_pos h

theorem State.load_nil {s : State} (h : s.es = .idle) (start : Nat) : s.load [] start = (s, .done) := by
  simp [State.load, h]

theorem State.load_of_not_fits {s : State} {bytes : List Byte} {start : Nat} (h : s.es = .idle) (hne : bytes ≠ [])
    (hpast : s.cfg.N < start + bytes.length) : s.load bytes start = (s, .loadOutOfRange) := by
  rw [State.load, if_neg (not_not.2 h), if_neg hne, if_neg (by omega)]

/-- Settles O55: the four outcomes of `load`, with memory after the one that writes known by `read_putAll`. -/
theorem loadWritesWholeOrNothing : Obligations.LoadWritesWholeOrNothing := by
  unfold Obligations.LoadWritesWholeOrNothing
  refine fun s bytes start hwf => ⟨fun h => State.load_of_not_idle h bytes start, ?_,
    fun h hne hpast => State.load_of_not_fits h hne hpast, fun h hfit => ?_⟩
  · rintro h rfl
    exact State.load_nil h start
  · exact ⟨_, State.load_of_fits h hfit, rfl, fun k hk => Memory.read_putAll_inside hwf start hk,
      fun addr hout => Memory.read_putAll_outside hwf hout⟩

/-- Settles O56: each of the three transactions tests the engine state first. -/
theorem disallowedTransactionsChangeNothing : Obligations.DisallowedTransactionsChangeNothing := by
  unfold Obligations.DisallowedTransactionsChangeNothing
  refine fun s => ⟨fun hidle => if_neg hidle, fun hstop => if_neg ?_, fun hes => if_neg ?_⟩
  · rintro ⟨hrun, hinput⟩
    rcases hstop with hstop | hstop
    · exact hstop hrun
    · simp [hinput] at hstop
  · rcases hes with hes | hes <;> simp [hes]

theorem State.transact_assertStop {s : State} (hrun : s.es = .running) (hinput : s.cfg.stopInput = true) :
    s.transact .assertStop = ({ s with stop := true }, .done) := if_pos ⟨hrun, hinput⟩

/-- Settles O57: the asserted signal makes the next step's stop check due (O32). -/
theorem assertedStopEndsTheRun : Obligations.AssertedStopEndsTheRun := by
  unfold Obligations.AssertedStopEndsTheRun
  intro s hrun hinput
  have hstep := stopCheckComesFirst { s with stop := true } hrun (.inl ⟨hinput, rfl⟩)
  exact ⟨_, _, _, State.transact_assertStop hrun hinput, hstep, rfl, rfl, rfl, rfl, rfl, rfl, rfl, rfl, rfl, rfl⟩

end Sys2Proof.Machine
end
